-- ==== Sys2Proof/Word.lean ====
section
/-! DEFINITION. The value types of the Frame Codec: the byte of 00_scope.md R11, the two multi-byte raw
forms of 30_encoding.md R46, and the 13-byte frame of R40. -/

namespace Sys2Proof

/-- An unsigned 8-bit value (R11). -/
abbrev Byte := BitVec 8

/-- The raw form "u16" of R46. -/
abbrev Half := BitVec 16

/-- The raw form "u32" of R46. -/
abbrev Word := BitVec 32

/-- A frame, request or response: exactly 13 bytes (R40). Field `b<k>` is the byte at offset `k` (R12). -/
structure Frame where
  b0 : Byte
  b1 : Byte
  b2 : Byte
  b3 : Byte
  b4 : Byte
  b5 : Byte
  b6 : Byte
  b7 : Byte
  b8 : Byte
  b9 : Byte
  b10 : Byte
  b11 : Byte
  b12 : Byte
  deriving DecidableEq, Repr

end Sys2Proof
end

