-- ==== Sys2Proof/Config.lean ====
section
/-! DEFINITION. The six message kinds and the instance parameters of the hardware (00_scope.md R7 to R9).

A `Config` is plain data and every state carries one, so that whatever holds of every state holds of every
TYPE_CODE, BUF_CAP and MOS_FLAG. No step changes it (70_reset_and_hazards.md R100). The instance the test
vectors use is `Config.default`, in Sys2Proof/Decode.lean. -/

namespace Sys2Proof

/-- MsgKind, in the order of the source's enumerated set (90_conflicts.md C2). -/
inductive MsgKind where
  | batteryLevel
  | minMaxVoltage
  | minMaxTemperature
  | mosStatus
  | packStatus
  | temperature
  deriving DecidableEq, Repr

/-- The six kinds in the fixed order of 90_conflicts.md C2. -/
def MsgKind.all : List MsgKind :=
  [.batteryLevel, .minMaxVoltage, .minMaxTemperature, .mosStatus, .packStatus, .temperature]

/-- The parameters fixed when the hardware is built: they are not state and nothing writes them
(10_state.md R21, 70_reset_and_hazards.md R100). -/
structure Config where
  /-- TYPE_CODE(battery_level) (R7) -/
  batteryLevelCode : Byte
  /-- TYPE_CODE(min_max_voltage) (R7) -/
  minMaxVoltageCode : Byte
  /-- TYPE_CODE(min_max_temperature) (R7) -/
  minMaxTemperatureCode : Byte
  /-- TYPE_CODE(mos_status) (R7) -/
  mosStatusCode : Byte
  /-- TYPE_CODE(pack_status) (R7) -/
  packStatusCode : Byte
  /-- TYPE_CODE(temperature) (R7) -/
  temperatureCode : Byte
  /-- BUF_CAP: the most bytes one DEC.LOAD takes; `none` is unbounded (R8) -/
  bufCap : Option Nat
  /-- MOS_FLAG as the list of the bytes it maps to false (R9); every predicate on bytes is such a list -/
  mosOff : List Byte
  deriving DecidableEq, Repr

/-- TYPE_CODE (R7). -/
def Config.typeCode (cfg : Config) : MsgKind → Byte
  | .batteryLevel => cfg.batteryLevelCode
  | .minMaxVoltage => cfg.minMaxVoltageCode
  | .minMaxTemperature => cfg.minMaxTemperatureCode
  | .mosStatus => cfg.mosStatusCode
  | .packStatus => cfg.packStatusCode
  | .temperature => cfg.temperatureCode

end Sys2Proof
end

