-- ==== Sys2Proof/Syntax.lean ====
section
/-! DEFINITION. The instructions: one constructor per row of spec/opcode_table.json (30_encoding.md R53).

An ENC row is a request the host commands: it has no operand beyond its kind (40_encoder.md R55 to R60). A DEC row is
an accepted response frame: its operands are the frame's fields by the layout of R46. The start byte, the
frame-kind byte, the type byte and the checksum are fixed by the row (R43), so they are no operands; the
unnamed byte at offset 3 and the bytes R46 calls unused are operands `b<offset>`, since any value may
stand there (R44, R46). -/

namespace Sys2Proof

/-- Operands of DEC.battery_level (R46, R77). -/
structure BatteryLevelOps where
  b3 : Byte
  vRaw : Half
  b6 : Byte
  b7 : Byte
  iRaw : Half
  socRaw : Half
  deriving DecidableEq, Repr

/-- Operands of DEC.min_max_voltage (R46, R78). -/
structure MinMaxVoltageOps where
  b3 : Byte
  vmaxRaw : Half
  vmaxCell : Byte
  vminRaw : Half
  vminCell : Byte
  b10 : Byte
  b11 : Byte
  deriving DecidableEq, Repr

/-- Operands of DEC.min_max_temperature (R46, R79). -/
structure MinMaxTemperatureOps where
  b3 : Byte
  tmaxRaw : Byte
  tmaxProbe : Byte
  tminRaw : Byte
  tminProbe : Byte
  b8 : Byte
  b9 : Byte
  b10 : Byte
  b11 : Byte
  deriving DecidableEq, Repr

/-- Operands of DEC.mos_status (R46, R80). -/
structure MosStatusOps where
  b3 : Byte
  stateRaw : Byte
  chgRaw : Byte
  dsgRaw : Byte
  b7 : Byte
  capRaw : Word
  deriving DecidableEq, Repr

/-- Operands of DEC.pack_status (R46, R81). -/
structure PackStatusOps where
  b3 : Byte
  cells : Byte
  b5 : Byte
  b6 : Byte
  b7 : Byte
  b8 : Byte
  b9 : Byte
  b10 : Byte
  b11 : Byte
  deriving DecidableEq, Repr

/-- Operands of DEC.temperature (R46, R82). -/
structure TemperatureOps where
  b3 : Byte
  sel : Byte
  t1Raw : Byte
  t2Raw : Byte
  b7 : Byte
  b8 : Byte
  b9 : Byte
  b10 : Byte
  b11 : Byte
  deriving DecidableEq, Repr

/-- Operands of DEC.unrecognised (R83): its type byte and the nine bytes nothing decodes. -/
structure UnrecognisedOps where
  t : Byte
  b3 : Byte
  b4 : Byte
  b5 : Byte
  b6 : Byte
  b7 : Byte
  b8 : Byte
  b9 : Byte
  b10 : Byte
  b11 : Byte
  deriving DecidableEq, Repr

/-- The 13 frame-level operations of the opcode table (R53). -/
inductive Instr where
  | encBatteryLevel
  | encMinMaxVoltage
  | encMinMaxTemperature
  | encMosStatus
  | encPackStatus
  | encTemperature
  | decBatteryLevel (x : BatteryLevelOps)
  | decMinMaxVoltage (x : MinMaxVoltageOps)
  | decMinMaxTemperature (x : MinMaxTemperatureOps)
  | decMosStatus (x : MosStatusOps)
  | decPackStatus (x : PackStatusOps)
  | decTemperature (x : TemperatureOps)
  | decUnrecognised (x : UnrecognisedOps)
  deriving DecidableEq, Repr

end Sys2Proof
end

