-- ==== Sys2Proof/WellFormed.lean ====
section
/-! DEFINITION. What a well-formed instance and a well-formed instruction are. -/

namespace Sys2Proof

/-- TYPE_CODE is injective: six distinct bytes, and nothing else is assumed of it (R7). -/
abbrev Config.wf (cfg : Config) : Prop := (MsgKind.all.map cfg.typeCode).Nodup

/-- A byte in the range of TYPE_CODE (R45, R83). -/
def Config.isTypeCode (cfg : Config) (t : Byte) : Bool := (MsgKind.all.map cfg.typeCode).contains t

/-- Every operand of every row is free but one: the type byte of DEC.unrecognised lies outside the range of
TYPE_CODE (R53, R83). -/
def Instr.wf (cfg : Config) : Instr → Bool
  | .encBatteryLevel => true
  | .encMinMaxVoltage => true
  | .encMinMaxTemperature => true
  | .encMosStatus => true
  | .encPackStatus => true
  | .encTemperature => true
  | .decBatteryLevel _ => true
  | .decMinMaxVoltage _ => true
  | .decMinMaxTemperature _ => true
  | .decMosStatus _ => true
  | .decPackStatus _ => true
  | .decTemperature _ => true
  | .decUnrecognised x => !cfg.isTypeCode x.t

end Sys2Proof
end

