-- ==== Sys2Proof/Decode.lean ====
section
/-! DEFINITION. The frame formats of 30_encoding.md: constants, byte-order and checksum helpers, the decoder (total,
rejecting by name) and, after it, the encoder. Also the default instance, and `decodeTableWord`. -/

namespace Sys2Proof

/-! ### Constants and helpers -/

/-- START, byte 0 of every frame (R6). -/
def startByte : Byte := 0xA5

/-- REQ_ADDR, byte 1 of a request frame (R6). -/
def reqAddr : Byte := 0x80

/-- REQ_LEN, byte 3 of a request frame (R6). -/
def reqLen : Byte := 0x08

/-- RSP_KIND, byte 1 of an acceptable response frame (R6). -/
def rspKind : Byte := 0x01

/-- FRAME_LEN (R6). -/
def frameLen : Nat := 13

/-- The instance the test vectors and the opcode table use. The type codes are the spec's defaults, which it marks
as general knowledge (R7, 93 K1): PRESUMED, log entry 1. BUF_CAP is unbounded and MOS_FLAG(b) is `b != 0` (R8, R9). -/
def Config.default : Config where
  batteryLevelCode := 0x90
  minMaxVoltageCode := 0x91
  minMaxTemperatureCode := 0x92
  mosStatusCode := 0x93
  packStatusCode := 0x94
  temperatureCode := 0x96
  bufCap := none
  mosOff := [0x00]

/-- `sum8`: the exact sum of the bytes, narrowed to its low byte (R13). -/
def sum8 (xs : List Byte) : Byte := BitVec.ofNat 8 (xs.map BitVec.toNat).sum

/-- `be16`: the byte at the lower offset is the most significant (R13, R28). -/
def be16 (a b : Byte) : Half := a ++ b

/-- `be32`: the byte at the lowest offset is the most significant (R13, R28). -/
def be32 (a b c d : Byte) : Word := a ++ b ++ c ++ d

/-- The byte of a u16 at the lower offset. -/
def hi16 (v : Half) : Byte := v.extractLsb' 8 8

/-- The byte of a u16 at the higher offset. -/
def lo16 (v : Half) : Byte := v.extractLsb' 0 8

/-- Byte `k` of a u32 as it lies in a frame, byte 0 at the lowest offset. -/
def byte32 (v : Word) (k : Nat) : Byte := v.extractLsb' (8 * (3 - k)) 8

/-- The frame's bytes in wire order, `F[0]` first (R29). -/
def Frame.bytes (f : Frame) : List Byte :=
  [f.b0, f.b1, f.b2, f.b3, f.b4, f.b5, f.b6, f.b7, f.b8, f.b9, f.b10, f.b11, f.b12]

/-- The first 13 bytes of a byte sequence as a frame; `none` where fewer remain. -/
def Frame.ofBytes : List Byte → Option Frame
  | b0 :: b1 :: b2 :: b3 :: b4 :: b5 :: b6 :: b7 :: b8 :: b9 :: b10 :: b11 :: b12 :: _ =>
    some ⟨b0, b1, b2, b3, b4, b5, b6, b7, b8, b9, b10, b11, b12⟩
  | _ => none

/-- `sum8(F[0], ..., F[11])`: the checksum a response frame must hold at offset 12 (R43, R68). -/
def Frame.checksum (f : Frame) : Byte :=
  sum8 [f.b0, f.b1, f.b2, f.b3, f.b4, f.b5, f.b6, f.b7, f.b8, f.b9, f.b10, f.b11]

/-- The request frame of a kind: four header bytes, eight zero bytes, and the sum of the header alone (R41, R42, R54). -/
def requestFrame (cfg : Config) (k : MsgKind) : Frame where
  b0 := startByte
  b1 := reqAddr
  b2 := cfg.typeCode k
  b3 := reqLen
  b4 := 0x00
  b5 := 0x00
  b6 := 0x00
  b7 := 0x00
  b8 := 0x00
  b9 := 0x00
  b10 := 0x00
  b11 := 0x00
  b12 := sum8 [startByte, reqAddr, cfg.typeCode k, reqLen]

/-- The kind a type byte names, or `none` where it is outside the range of TYPE_CODE (R45). -/
def Config.kindOf (cfg : Config) (t : Byte) : Option MsgKind :=
  MsgKind.all.find? (fun k => cfg.typeCode k = t)

/-- The ENC row of a kind (R53). -/
def MsgKind.encInstr : MsgKind → Instr
  | .batteryLevel => .encBatteryLevel
  | .minMaxVoltage => .encMinMaxVoltage
  | .minMaxTemperature => .encMinMaxTemperature
  | .mosStatus => .encMosStatus
  | .packStatus => .encPackStatus
  | .temperature => .encTemperature

/-! ### The decoder -/

/-- Why a window that begins with the start byte is no response frame (R49). -/
inductive Reject where
  /-- illegal frame kind: `F[1] != 0x01` (R67) -/
  | badKind (kind : Byte)
  /-- corrupt: `F[12] != sum8(F[0..11])` (R68) -/
  | badSum (computed stored : Byte)
  deriving DecidableEq, Repr

/-- Why a byte sequence holds no instruction at its start. -/
inductive DecodeError where
  /-- fewer than 13 bytes (R40) -/
  | truncated
  /-- not a candidate: byte 0 is not the start byte (R49) -/
  | noStart (b : Byte)
  /-- byte 1 is the request address, and the frame is none of the six request frames (R50) -/
  | badRequest
  /-- a rejected response candidate (R49) -/
  | response (r : Reject)
  deriving DecidableEq, Repr

/-- The operands of a response frame of a given kind, by the layout of R46. -/
def decodeFields (f : Frame) : MsgKind → Instr
  | .batteryLevel =>
    .decBatteryLevel
      { b3 := f.b3, vRaw := be16 f.b4 f.b5, b6 := f.b6, b7 := f.b7, iRaw := be16 f.b8 f.b9,
        socRaw := be16 f.b10 f.b11 }
  | .minMaxVoltage =>
    .decMinMaxVoltage
      { b3 := f.b3, vmaxRaw := be16 f.b4 f.b5, vmaxCell := f.b6, vminRaw := be16 f.b7 f.b8,
        vminCell := f.b9, b10 := f.b10, b11 := f.b11 }
  | .minMaxTemperature =>
    .decMinMaxTemperature
      { b3 := f.b3, tmaxRaw := f.b4, tmaxProbe := f.b5, tminRaw := f.b6, tminProbe := f.b7,
        b8 := f.b8, b9 := f.b9, b10 := f.b10, b11 := f.b11 }
  | .mosStatus =>
    .decMosStatus
      { b3 := f.b3, stateRaw := f.b4, chgRaw := f.b5, dsgRaw := f.b6, b7 := f.b7,
        capRaw := be32 f.b8 f.b9 f.b10 f.b11 }
  | .packStatus =>
    .decPackStatus
      { b3 := f.b3, cells := f.b4, b5 := f.b5, b6 := f.b6, b7 := f.b7, b8 := f.b8, b9 := f.b9,
        b10 := f.b10, b11 := f.b11 }
  | .temperature =>
    .decTemperature
      { b3 := f.b3, sel := f.b4, t1Raw := f.b5, t2Raw := f.b6, b7 := f.b7, b8 := f.b8, b9 := f.b9,
        b10 := f.b10, b11 := f.b11 }

/-- The row of an accepted response frame, selected by its type byte (R45, R76). -/
def decodeAccepted (cfg : Config) (f : Frame) : Instr :=
  match cfg.kindOf f.b2 with
  | some k => decodeFields f k
  | none =>
    .decUnrecognised
      { t := f.b2, b3 := f.b3, b4 := f.b4, b5 := f.b5, b6 := f.b6, b7 := f.b7, b8 := f.b8, b9 := f.b9,
        b10 := f.b10, b11 := f.b11 }

/-- The scanner's decoder of a candidate (its byte 0 is the start byte): the frame-kind test, then the checksum
test; the first that fails decides (R67, R68, R70). A request frame in the buffer fails the first (R61). -/
def decodeResponse (cfg : Config) (f : Frame) : Except Reject Instr :=
  if f.b1 ≠ rspKind then .error (.badKind f.b1)
  else if f.checksum ≠ f.b12 then .error (.badSum f.checksum f.b12)
  else .ok (decodeAccepted cfg f)

/-- A request frame is one of the six, whole (R41, R50). -/
def decodeRequest (cfg : Config) (f : Frame) : Except DecodeError Instr :=
  match MsgKind.all.find? (fun k => requestFrame cfg k = f) with
  | some k => .ok k.encInstr
  | none => .error .badRequest

/-- The opcode table's decoder on one frame: requests are told from responses by byte 1 (R42). -/
def decodeFrame (cfg : Config) (f : Frame) : Except DecodeError Instr :=
  if f.b0 ≠ startByte then .error (.noStart f.b0)
  else if f.b1 = reqAddr then decodeRequest cfg f
  else (decodeResponse cfg f).mapError .response

/-- The decoder, total on any bytes: an instruction is the first 13 of them (R40). -/
def decode (cfg : Config) (bs : List Byte) : Except DecodeError Instr :=
  match Frame.ofBytes bs with
  | none => .error .truncated
  | some f => decodeFrame cfg f

/-! ### The encoder -/

/-- A response frame of type byte `t` with bytes 3 to 11 as given and its checksum (R43). -/
def responseFrame (t b3 b4 b5 b6 b7 b8 b9 b10 b11 : Byte) : Frame where
  b0 := startByte
  b1 := rspKind
  b2 := t
  b3 := b3
  b4 := b4
  b5 := b5
  b6 := b6
  b7 := b7
  b8 := b8
  b9 := b9
  b10 := b10
  b11 := b11
  b12 := sum8 [startByte, rspKind, t, b3, b4, b5, b6, b7, b8, b9, b10, b11]

/-- The frame of an instruction (R41, R43, R46). -/
def encode (cfg : Config) : Instr → Frame
  | .encBatteryLevel => requestFrame cfg .batteryLevel
  | .encMinMaxVoltage => requestFrame cfg .minMaxVoltage
  | .encMinMaxTemperature => requestFrame cfg .minMaxTemperature
  | .encMosStatus => requestFrame cfg .mosStatus
  | .encPackStatus => requestFrame cfg .packStatus
  | .encTemperature => requestFrame cfg .temperature
  | .decBatteryLevel x =>
    responseFrame (cfg.typeCode .batteryLevel) x.b3 (hi16 x.vRaw) (lo16 x.vRaw) x.b6 x.b7 (hi16 x.iRaw) (lo16 x.iRaw)
      (hi16 x.socRaw) (lo16 x.socRaw)
  | .decMinMaxVoltage x =>
    responseFrame (cfg.typeCode .minMaxVoltage) x.b3 (hi16 x.vmaxRaw) (lo16 x.vmaxRaw) x.vmaxCell (hi16 x.vminRaw)
      (lo16 x.vminRaw) x.vminCell x.b10 x.b11
  | .decMinMaxTemperature x =>
    responseFrame (cfg.typeCode .minMaxTemperature) x.b3 x.tmaxRaw x.tmaxProbe x.tminRaw x.tminProbe x.b8 x.b9 x.b10 x.b11
  | .decMosStatus x =>
    responseFrame (cfg.typeCode .mosStatus) x.b3 x.stateRaw x.chgRaw x.dsgRaw x.b7 (byte32 x.capRaw 0) (byte32 x.capRaw 1)
      (byte32 x.capRaw 2) (byte32 x.capRaw 3)
  | .decPackStatus x =>
    responseFrame (cfg.typeCode .packStatus) x.b3 x.cells x.b5 x.b6 x.b7 x.b8 x.b9 x.b10 x.b11
  | .decTemperature x =>
    responseFrame (cfg.typeCode .temperature) x.b3 x.sel x.t1Raw x.t2Raw x.b7 x.b8 x.b9 x.b10 x.b11
  | .decUnrecognised x =>
    responseFrame x.t x.b3 x.b4 x.b5 x.b6 x.b7 x.b8 x.b9 x.b10 x.b11

/-! ### Words numbered as the host numbers them -/

/-- The 13 bytes of a word of `nbits` bits whose byte 0 is bits 7..0; the bits above `nbits` are zero. -/
def bytesFromLow (nbits w : Nat) : List Byte :=
  (List.range frameLen).map (fun k => BitVec.ofNat 8 (w % 2 ^ nbits / 2 ^ (8 * k)))

/-- The 13 bytes of a word of `nbits` bits read as the table's hex strings are written, byte 0 first, so that byte 0
is the word's top byte; the bytes beyond `nbits` are zero. -/
def bytesFromHigh (nbits w : Nat) : List Byte :=
  (List.range frameLen).map
    (fun k => if 8 * (k + 1) ≤ nbits then BitVec.ofNat 8 (w % 2 ^ nbits / 2 ^ (nbits - 8 * (k + 1))) else 0)

/-- The bytes of a table word in wire order. Every row of the table begins with the start byte, so a word whose low
byte is not it is read in the order the table's hex strings are written (DESIGN CHOICE, log entry 9). -/
def tableWordBytes (nbits w : Nat) : List Byte :=
  if (bytesFromLow nbits w).head? = some startByte then bytesFromLow nbits w else bytesFromHigh nbits w

/-- What the decoder reads from a table word, under the default instance (the table's own type codes, R53). -/
def decodeTableWord (nbits w : Nat) : Option Instr :=
  (decode Config.default (tableWordBytes nbits w)).toOption

end Sys2Proof
end

