-- ==== Sys2Proof/Machine/State.lean ====
section
/-! DEFINITION. The state of the block (10_state.md R17) as plain data, what its streams hold, the host inputs that
wait for it, and the state after reset (70_reset_and_hazards.md R100). -/

namespace Sys2Proof.Machine

/-- PHASE (R18). -/
inductive Phase where
  | idle
  | scanning
  | done
  deriving DecidableEq, Repr

/-- LAST, the outcome of the most recent DEC.STEP (R20). -/
inductive Last where
  | none
  | acc
  | rejKind
  | rejSum
  | endExhausted
  | endTruncated
  deriving DecidableEq, Repr

/-- The record of an accepted frame, raw values only (42_field_decode.md R76). -/
inductive Record where
  | batteryLevel (vRaw iRaw socRaw : Half)
  | minMaxVoltage (vmaxRaw : Half) (vmaxCell : Byte) (vminRaw : Half) (vminCell : Byte)
  | minMaxTemperature (tmaxRaw tmaxProbe tminRaw tminProbe : Byte)
  | mosStatus (stateRaw chgRaw dsgRaw : Byte) (capRaw : Word)
  | packStatus (cells : Byte)
  | temperature (sel t1Raw t2Raw : Byte)
  | unrecognised (t : Byte)
  deriving DecidableEq, Repr

/-- The events of R63; a position is an index into BUF. -/
inductive Event where
  | acc (p : Nat) (f : Frame) (r : Record)
  | rejKind (p : Nat) (kind : Byte)
  | rejSum (p : Nat) (computed stored : Byte)
  | endExhausted
  | endTruncated (p : Nat)
  deriving DecidableEq, Repr

/-- The eighteen channels of the sink, in the order of R84. -/
inductive Channel where
  | voltage
  | current
  | batteryLevel
  | maxCellVoltage
  | maxCellIndex
  | minCellVoltage
  | minCellIndex
  | maxTemperature
  | maxTemperatureProbe
  | minTemperature
  | minTemperatureProbe
  | packState
  | chargeMos
  | dischargeMos
  | remainingCapacity
  | cellCount
  | temperature1
  | temperature2
  deriving DecidableEq, Repr

/-- The values of the pack_state channel (R80, R84). -/
inductive PackState where
  | idle
  | charging
  | discharging
  deriving DecidableEq, Repr

/-- A published value: exact, never floating point (R11, R84). -/
inductive Value where
  | rational (q : Rat)
  | natural (n : Nat)
  | integer (z : Int)
  | packState (p : PackState)
  | flag (b : Bool)
  deriving DecidableEq, Repr

/-- One entry of PUB: a channel and its value (R17). -/
abbrev Publish := Channel × Value

/-- The refusals of 60_exceptions.md R89. A refused command changes only REFUSED; the machine goes on. -/
inductive CmdRefusal where
  /-- DEC.STEP with PHASE not SCANNING -/
  | notScanning
  /-- DEC.LOAD with PHASE = SCANNING -/
  | busy
  /-- DEC.LOAD of more than BUF_CAP bytes -/
  | tooLong
  /-- ENC of an operand that is no MsgKind -/
  | badKind
  deriving DecidableEq, Repr

/-- What a host may hand to ENC: a message kind, or a raw byte, which is no MsgKind (R50). -/
inductive EncOperand where
  | kind (k : MsgKind)
  | raw (b : Byte)
  deriving DecidableEq, Repr

/-- What the host may issue: the four commands of 30_encoding.md R51, and a reset (R100, R101). -/
inductive HostInput where
  | enc (operand : EncOperand)
  | decLoad (b : List Byte)
  | decStep
  | decRun
  | reset
  deriving DecidableEq, Repr

/-- The buffer space (20_memory.md R26): cells in rising order of address. An unlisted address holds no byte, since
an index at or beyond LEN does not exist (R36). -/
abbrev Memory := List Host.Cell

/-- The canonical form of a memory: addresses strictly rising. (No listed byte can equal what an unlisted address reads
as, because that is no byte at all.) -/
abbrev Memory.wf (m : Memory) : Prop := (m.map Prod.fst).Pairwise (· < ·)

/-- The state of the block. `phase` to `refused` are R17's table, in its order; the rest is the model's: the
instance's parameters (R7 to R9), the record of refusals of R14, and the host's inputs that no step has taken yet. -/
structure State where
  /-- PHASE -/
  phase : Phase
  /-- BUF -/
  buf : Memory
  /-- LEN -/
  len : Nat
  /-- POS -/
  pos : Nat
  /-- LAST -/
  last : Last
  /-- EVT, oldest first -/
  evt : List Event
  /-- PUB, oldest first -/
  pub : List Publish
  /-- TX, first byte on the wire first -/
  tx : List Byte
  /-- REFUSED, sticky -/
  refused : Bool
  /-- which refusals made REFUSED true since reset, oldest first (R14 "records the refusal R"; DEDUCED, log entry 3) -/
  refusals : List CmdRefusal
  /-- the instance's parameters, written by nothing (R100; DESIGN CHOICE, log entry 2) -/
  cfg : Config
  /-- the host's inputs still to come, the next one first (DESIGN CHOICE, log entry 4) -/
  inputs : List HostInput
  deriving DecidableEq, Repr

/-- Why the machine stops. The spec treats nothing as a fault (93_implementation_defined.md, after U24). -/
inductive Fault where
  /-- Raised by DEC.STEP where a byte of the candidate at `p` lies below LEN and BUF does not hold it: `MemRead(a, 1)` is
  defined only for `a < LEN` (R14, R71). No state with LEN = |BUF| raises it. Safe: the model stops where the
  spec defines no read. -/
  | undefinedRead (p : Nat)
  deriving DecidableEq, Repr

/-- Why the model gives an instruction no meaning. -/
inductive Refusal where
  /-- Raised only by an arm of `exec` that has no meaning yet, with the row's mnemonic; no arm of this model does so.
  Safe: the model stops. -/
  | notModelled (mnemonic : String)
  deriving DecidableEq, Repr

/-- What a step answers. -/
abbrev Result := Host.Outcome State Fault Refusal

/-- The state after reset of an instance (R100). Every value is R17's. -/
def State.resetOf (cfg : Config) : State where
  phase := .idle
  buf := []
  len := 0
  pos := 0
  last := .none
  evt := []
  pub := []
  tx := []
  refused := false
  refusals := []
  cfg := cfg
  inputs := []

/-- The state after reset of the default instance; the host has issued nothing yet. -/
def State.reset : State := State.resetOf Config.default

end Sys2Proof.Machine
end

