-- ==== Sys2Proof/Machine/Flags.lean ====
section
/-! DEFINITION. Status: how LAST follows from an event, and the status view the host reads (10_state.md R20, R21). -/

namespace Sys2Proof.Machine

/-- LAST is set to the kind of the event a DEC.STEP emitted (R20). -/
def Event.last : Event → Last
  | .acc _ _ _ => .acc
  | .rejKind _ _ => .rejKind
  | .rejSum _ _ _ => .rejSum
  | .endExhausted => .endExhausted
  | .endTruncated _ => .endTruncated

/-- The two END events are the only ones that end a pass (R63). -/
def Event.isEnd : Event → Bool
  | .acc _ _ _ => false
  | .rejKind _ _ => false
  | .rejSum _ _ _ => false
  | .endExhausted => true
  | .endTruncated _ => true

/-- PHASE in two bits; 3 never occurs (R21). -/
def Phase.code : Phase → BitVec 2
  | .idle => 0
  | .scanning => 1
  | .done => 2

/-- LAST in three bits; 6 and 7 never occur (R21, R87). -/
def Last.code : Last → BitVec 3
  | .none => 0
  | .acc => 1
  | .rejKind => 2
  | .rejSum => 3
  | .endExhausted => 4
  | .endTruncated => 5

/-- What the host reads of the block, at any time and without effect (R21). -/
structure StatusView where
  phase : BitVec 2
  last : BitVec 3
  pos : Nat
  len : Nat
  deriving DecidableEq, Repr

/-- The status view of a state (R21). -/
def State.statusView (s : State) : StatusView where
  phase := s.phase.code
  last := s.last.code
  pos := s.pos
  len := s.len

end Sys2Proof.Machine
end

