-- ==== Sys2Proof/Machine/Operands.lean ====
section
/-! DEFINITION. The transforms from raw fields to published values (30_encoding.md R48), and the list of publishes of a
record (42_field_decode.md R77 to R84). -/

namespace Sys2Proof.Machine

/-- CURRENT_OFFSET (R6). -/
def currentOffset : Int := 30000

/-- TEMP_OFFSET (R6). -/
def tempOffset : Int := 40

/-- TEMP_SELECTOR_OK (R6). -/
def tempSelectorOk : Byte := 1

/-- SCALE(d): `raw / d`, exact (R48). -/
def scale (raw : Nat) (d : Nat) : Value := .rational (mkRat raw d)

/-- OFFSET_SCALE: `(raw - 30000) / 10`, subtracted in integers (R48, R77). -/
def offsetScale (raw : Half) : Value := .rational (mkRat (raw.toNat - currentOffset) 10)

/-- TEMP: `raw - 40` (R48). -/
def temp (raw : Byte) : Value := .integer (raw.toNat - tempOffset)

/-- IDENT: the raw byte (R48). -/
def ident (raw : Byte) : Value := .natural raw.toNat

/-- ENUM: the pack state a byte names, if any (R48, R80). -/
def enumState (raw : Byte) : Option PackState :=
  if raw = 0 then some .idle
  else if raw = 1 then some .charging
  else if raw = 2 then some .discharging
  else none

/-- MOS_FLAG of the instance (R9). -/
def mosFlag (cfg : Config) (b : Byte) : Bool := !cfg.mosOff.contains b

/-- FLAG: MOS_FLAG of the raw byte (R48). -/
def flag (cfg : Config) (raw : Byte) : Value := .flag (mosFlag cfg raw)

/-- PUBLISHES(rec), in the order of R84. -/
def publishes (cfg : Config) : Record → List Publish
  | .batteryLevel v i soc =>
    [(.voltage, scale v.toNat 10), (.current, offsetScale i), (.batteryLevel, scale soc.toNat 10)]
  | .minMaxVoltage vmax vmaxCell vmin vminCell =>
    [(.maxCellVoltage, scale vmax.toNat 1000), (.maxCellIndex, ident vmaxCell),
      (.minCellVoltage, scale vmin.toNat 1000), (.minCellIndex, ident vminCell)]
  | .minMaxTemperature tmax tmaxProbe tmin tminProbe =>
    [(.maxTemperature, temp tmax), (.maxTemperatureProbe, ident tmaxProbe),
      (.minTemperature, temp tmin), (.minTemperatureProbe, ident tminProbe)]
  | .mosStatus state chg dsg cap =>
    (enumState state).toList.map (fun p => (.packState, .packState p))
      ++ [(.chargeMos, flag cfg chg), (.dischargeMos, flag cfg dsg), (.remainingCapacity, scale cap.toNat 1000)]
  | .packStatus cells => [(.cellCount, ident cells)]
  | .temperature sel t1 t2 =>
    if sel = tempSelectorOk then [(.temperature1, temp t1), (.temperature2, temp t2)] else []
  | .unrecognised _ => []

end Sys2Proof.Machine
end

