-- ==== Sys2Proof/Machine/Ops.lean ====
section
/-! DEFINITION. The named operations over the buffer, the cursor and the streams (00_scope.md R14), and the two outcomes
every instruction ends in: a refused command and an accepted frame. The block has no trap entry and no
return from one (60_exceptions.md R92); a refusal (R89) is what a command that may not run ends in. -/

namespace Sys2Proof.Machine

/-! ### The buffer -/

/-- `MemRead(a, 1)`: the byte at an address, `none` where the address does not exist (R14, R32). -/
def Memory.read (m : Memory) (a : Nat) : Option Byte := List.lookup a m

/-- The cells of a byte sequence laid out from address `a` on. -/
def Memory.layFrom : Nat → List Byte → Memory
  | _, [] => []
  | a, b :: bs => (a, b) :: Memory.layFrom (a + 1) bs

/-- The memory DEC.LOAD latches: byte `i` of the host's buffer at index `i` (R26, R29). -/
def Memory.latch (bs : List Byte) : Memory := Memory.layFrom 0 bs

/-- The least index in `[i, i + n)` that holds the start byte (R64 step 1). -/
def findStart (m : Memory) : Nat → Nat → Option Nat
  | _, 0 => none
  | i, n + 1 => if m.read i = some startByte then some i else findStart m (i + 1) n

/-- The bytes at `n` addresses from `a` on, if all of them exist. -/
def Memory.readMany (m : Memory) : Nat → Nat → Option (List Byte)
  | _, 0 => some []
  | a, n + 1 => do
    let b ← m.read a
    let bs ← m.readMany (a + 1) n
    return b :: bs

/-- The candidate at `p`: the window `BUF[p .. p+12]` (R12). -/
def window (m : Memory) (p : Nat) : Option Frame := (m.readMany p frameLen).bind Frame.ofBytes

/-! ### The streams -/

/-- `emit E`: append to EVT and record the event's kind in LAST (R14, R20). -/
def State.emit (s : State) (e : Event) : State := { s with evt := s.evt ++ [e], last := e.last }

/-- `publish` each entry in order (R14, R84). -/
def State.publish (s : State) (ps : List Publish) : State := { s with pub := s.pub ++ ps }

/-- `TxWrite(S)`: append to TX, byte 0 first, as one append (R14, R34). -/
def State.txWrite (s : State) (bs : List Byte) : State := { s with tx := s.tx ++ bs }

/-- `POS <- p`. -/
def State.setPos (s : State) (p : Nat) : State := { s with pos := p }

/-- `PHASE <- p`. -/
def State.setPhase (s : State) (p : Phase) : State := { s with phase := p }

/-! ### The outcomes -/

/-- A refused command: no state changes but REFUSED, which is sticky, and the record of which refusal it was (R89). -/
def State.refuse (s : State) (r : CmdRefusal) : State :=
  { s with refused := true, refusals := s.refusals ++ [r] }

/-- Whether a buffer of `n` bytes is within BUF_CAP (R8). -/
def fitsCap (cfg : Config) (n : Nat) : Bool :=
  match cfg.bufCap with
  | none => true
  | some c => decide (n ≤ c)

/-- The encoder's operation: append the request frame of a kind to TX, in any phase (R54). -/
def transmitRequest (k : MsgKind) (s : State) : Result :=
  .next (s.txWrite (requestFrame s.cfg k).bytes)

/-- Accept the frame `f` at POS with its record (R69, and the accept branch of R64): POS moves past its 13 bytes, then
the ACC event, then the publishes (R37). A decoder is reached only inside a DEC.STEP, so outside SCANNING this is
the refusal of one (R86, R89). -/
def acceptFrame (f : Frame) (r : Record) (s : State) : Result :=
  if s.phase = .scanning then
    .next (((s.setPos (s.pos + frameLen)).emit (.acc s.pos f r)).publish (publishes s.cfg r))
  else .next (s.refuse .notScanning)

/-- A rejected candidate at `p`: one-byte advance and its event (R67, R68). -/
def reject (e : Event) (p : Nat) (s : State) : Result := .next ((s.setPos (p + 1)).emit e)

/-- The end of a pass: the final cursor, PHASE = DONE and the END event (R65, R66). -/
def endPass (e : Event) (p : Nat) (s : State) : Result :=
  .next (((s.setPos p).setPhase .done).emit e)

end Sys2Proof.Machine
end

