-- ==== Sys2Proof/Machine/Encoder.lean ====
section
/-! DEFINITION. The ENC family: the request encoder (40_encoder.md). -/

namespace Sys2Proof.Machine

/-- ENC.battery_level (R55). -/
def execEncBatteryLevel (s : State) : Result := transmitRequest .batteryLevel s

/-- ENC.min_max_voltage (R56). -/
def execEncMinMaxVoltage (s : State) : Result := transmitRequest .minMaxVoltage s

/-- ENC.min_max_temperature (R57). -/
def execEncMinMaxTemperature (s : State) : Result := transmitRequest .minMaxTemperature s

/-- ENC.mos_status (R58). -/
def execEncMosStatus (s : State) : Result := transmitRequest .mosStatus s

/-- ENC.pack_status (R59). -/
def execEncPackStatus (s : State) : Result := transmitRequest .packStatus s

/-- ENC.temperature (R60). -/
def execEncTemperature (s : State) : Result := transmitRequest .temperature s

end Sys2Proof.Machine
end

