-- ==== Sys2Proof/Machine/FieldDecode.lean ====
section
/-! DEFINITION. The DEC family: the field decoders (42_field_decode.md). Each accepts the frame its operands stand for and
publishes its record. The frame an ACC event holds is the encoding of the instruction, which is the 13 bytes
the decoder read (Sys2Proof/Laws/Codec.lean, `encode_decodeAccepted`). -/

namespace Sys2Proof.Machine

/-- DEC.battery_level (R77). -/
def execDecBatteryLevel (x : BatteryLevelOps) (s : State) : Result :=
  acceptFrame (encode s.cfg (.decBatteryLevel x)) (.batteryLevel x.vRaw x.iRaw x.socRaw) s

/-- DEC.min_max_voltage (R78). -/
def execDecMinMaxVoltage (x : MinMaxVoltageOps) (s : State) : Result :=
  acceptFrame (encode s.cfg (.decMinMaxVoltage x)) (.minMaxVoltage x.vmaxRaw x.vmaxCell x.vminRaw x.vminCell) s

/-- DEC.min_max_temperature (R79). -/
def execDecMinMaxTemperature (x : MinMaxTemperatureOps) (s : State) : Result :=
  acceptFrame (encode s.cfg (.decMinMaxTemperature x))
    (.minMaxTemperature x.tmaxRaw x.tmaxProbe x.tminRaw x.tminProbe) s

/-- DEC.mos_status (R80). -/
def execDecMosStatus (x : MosStatusOps) (s : State) : Result :=
  acceptFrame (encode s.cfg (.decMosStatus x)) (.mosStatus x.stateRaw x.chgRaw x.dsgRaw x.capRaw) s

/-- DEC.pack_status (R81). -/
def execDecPackStatus (x : PackStatusOps) (s : State) : Result :=
  acceptFrame (encode s.cfg (.decPackStatus x)) (.packStatus x.cells) s

/-- DEC.temperature (R82): accepted whatever the selector; only the publishes depend on it. -/
def execDecTemperature (x : TemperatureOps) (s : State) : Result :=
  acceptFrame (encode s.cfg (.decTemperature x)) (.temperature x.sel x.t1Raw x.t2Raw) s

/-- DEC.unrecognised (R83): accepted, and nothing published. -/
def execDecUnrecognised (x : UnrecognisedOps) (s : State) : Result :=
  acceptFrame (encode s.cfg (.decUnrecognised x)) (.unrecognised x.t) s

end Sys2Proof.Machine
end

