-- ==== Sys2Proof/Machine/Dispatch.lean ====
section
/-! DEFINITION. One arm per row of the opcode table. -/

namespace Sys2Proof.Machine

def exec (i : Instr) (s : State) : Host.Outcome State Fault Refusal :=
  match i with
  | .encBatteryLevel => Sys2Proof.Machine.execEncBatteryLevel s
  | .encMinMaxVoltage => Sys2Proof.Machine.execEncMinMaxVoltage s
  | .encMinMaxTemperature => Sys2Proof.Machine.execEncMinMaxTemperature s
  | .encMosStatus => Sys2Proof.Machine.execEncMosStatus s
  | .encPackStatus => Sys2Proof.Machine.execEncPackStatus s
  | .encTemperature => Sys2Proof.Machine.execEncTemperature s
  | .decBatteryLevel x => Sys2Proof.Machine.execDecBatteryLevel x s
  | .decMinMaxVoltage x => Sys2Proof.Machine.execDecMinMaxVoltage x s
  | .decMinMaxTemperature x => Sys2Proof.Machine.execDecMinMaxTemperature x s
  | .decMosStatus x => Sys2Proof.Machine.execDecMosStatus x s
  | .decPackStatus x => Sys2Proof.Machine.execDecPackStatus x s
  | .decTemperature x => Sys2Proof.Machine.execDecTemperature x s
  | .decUnrecognised x => Sys2Proof.Machine.execDecUnrecognised x s

end Sys2Proof.Machine
end

