-- ==== Sys2Proof/Machine/Scanner.lean ====
section
/-! DEFINITION. The scanner (41_scanner.md): latching a buffer, and what a DEC.STEP finds. -/

namespace Sys2Proof.Machine

/-- DEC.LOAD B: BUSY is tested before TOO_LONG (R62, R90). -/
def loadBuffer (b : List Byte) (s : State) : Result :=
  if s.phase = .scanning then .next (s.refuse .busy)
  else if !fitsCap s.cfg b.length then .next (s.refuse .tooLong)
  else .next { s with buf := Memory.latch b, len := b.length, pos := 0, last := .none, phase := .scanning }

/-- What the search and the tests of one DEC.STEP find (R64). -/
inductive ScanResult where
  /-- no start byte at or after POS (R65) -/
  | exhausted
  /-- a start byte at `p` with fewer than 13 bytes left (R66) -/
  | truncated (p : Nat)
  /-- a byte of the candidate that BUF does not hold: only where LEN is not |BUF| (R71) -/
  | undefinedRead (p : Nat)
  /-- a candidate at `p` that fails the frame-kind or the checksum test (R67, R68) -/
  | rejected (p : Nat) (r : Reject)
  /-- a valid frame at `p` (R69) -/
  | accepted (p : Nat) (i : Instr)
  deriving DecidableEq, Repr

/-- Steps 1 to 4 of R64, in its order (R70). -/
def scan (s : State) : ScanResult :=
  match findStart s.buf s.pos (s.len - s.pos) with
  | none => .exhausted
  | some p =>
    if s.len - p < frameLen then .truncated p
    else
      match window s.buf p with
      | none => .undefinedRead p
      | some f =>
        match decodeResponse s.cfg f with
        | .error r => .rejected p r
        | .ok i => .accepted p i

/-- The event of a rejected candidate (R63). -/
def rejectEvent (p : Nat) : Reject → Event
  | .badKind k => .rejKind p k
  | .badSum computed stored => .rejSum p computed stored

end Sys2Proof.Machine
end

