-- ==== Sys2Proof/Machine/Command.lean ====
section
/-! DEFINITION. The host's commands (30_encoding.md R51, R52) and reset, each one atomic step of the block (R5, R37). -/

namespace Sys2Proof.Machine

/-- DEC.STEP (R64). POS is moved to an accepted candidate before its instruction runs there. -/
def decStep (s : State) : Result :=
  if s.phase = .scanning then
    match scan s with
    | .exhausted => endPass .endExhausted s.len s
    | .truncated p => endPass (.endTruncated p) p s
    | .undefinedRead p => .fault (.undefinedRead p)
    | .rejected p r => reject (rejectEvent p r) p s
    | .accepted p i => exec i (s.setPos p)
  else .next (s.refuse .notScanning)

/-- ENC: the row of the kind, or the refusal BAD_KIND (R50, R54). -/
def encCommand (op : EncOperand) (s : State) : Result :=
  match op with
  | .kind k => exec k.encInstr s
  | .raw _ => .next (s.refuse .badKind)

/-- DEC.RUN: `while PHASE = SCANNING: DEC.STEP` (R52, R72). Each turn of the loop is one step of the machine, and the
command stays the next input until PHASE is no longer SCANNING. -/
def decRun (s : State) : Result :=
  if s.phase = .scanning then decStep { s with inputs := .decRun :: s.inputs } else .next s

/-- Reset (R100, R101): every element at its reset value, a pass in progress abandoned with no END event. The
instance's parameters are kept, and so are the inputs the host issues after the reset. -/
def resetBlock (s : State) : Result := .next { State.resetOf s.cfg with inputs := s.inputs }

/-- One input of the host, already taken from the head of `inputs`. -/
def runInput (c : HostInput) (s : State) : Result :=
  match c with
  | .enc op => encCommand op s
  | .decLoad b => loadBuffer b s
  | .decStep => decStep s
  | .decRun => decRun s
  | .reset => resetBlock s

/-- One step: the block runs the host's next input to completion; with none issued it stays as it is (R37, R91). -/
def runNext (s : State) : Result :=
  match s.inputs with
  | [] => .next s
  | c :: rest => runInput c { s with inputs := rest }

/-- The pseudo-command `CYCLE B` (R52), in the order of R95. -/
def cycle (b : List Byte) : List HostInput :=
  MsgKind.all.map (fun k => .enc (.kind k)) ++ [.decLoad b, .decRun]

/-- Place a frame as the instruction the very next step runs. A request frame is one the host commands with ENC; any
other 13 bytes are latched as a buffer whose pass has just begun, and the host commands DEC.STEP. -/
def State.placeFrame (s : State) (bs : List Byte) : State :=
  match (Frame.ofBytes bs).bind (fun f => MsgKind.all.find? (fun k => requestFrame s.cfg k = f)) with
  | some k => { s with inputs := .enc (.kind k) :: s.inputs }
  | none =>
    { s with
      buf := Memory.latch bs, len := bs.length, pos := 0, last := .none, phase := .scanning,
      inputs := .decStep :: s.inputs }

end Sys2Proof.Machine
end

