-- ==== Sys2Proof/Machine/Step.lean ====
section
/-! DEFINITION. The step of the machine, and how the host of the pipeline places one instruction for it. -/

namespace Sys2Proof.Machine

/-- One transaction: the host's next input, run to completion (R5, R37). -/
def step (s : State) : Host.Outcome State Fault Refusal := runNext s

/-- `s` with the instruction whose bits are `w` placed so that the very next step runs it. -/
def State.withFetchWord (s : State) (nbits w : Nat) : State := s.placeFrame (tableWordBytes nbits w)

end Sys2Proof.Machine
end

