-- ==== Sys2Proof/Safety.lean ====
section
/-! DEFINITION. The terms claims are stated in: candidates and frames in the buffer, the record the spec assigns to a
frame, valid events, the refused commands, and the invariant of the machine. -/

namespace Sys2Proof.Machine

/-- `BUF[p .. p+12]` is the frame `f` (R12). -/
def HoldsFrame (s : State) (p : Nat) (f : Frame) : Prop :=
  ∀ k, k < 13 → s.buf.read (p + k) = f.bytes[k]?

/-- `p` is the least index with `POS <= p < LEN` and `BUF[p] = 0xA5` (R64 step 1). -/
def IsCandidate (s : State) (p : Nat) : Prop :=
  s.pos ≤ p ∧ p < s.len ∧ s.buf.read p = some 0xA5 ∧ ∀ i, s.pos ≤ i → i < p → s.buf.read i ≠ some 0xA5

/-- `DECODE(F)`, written from R76 and the pseudocode of R77 to R83 with no reference to the model's decoder. -/
def decodeRecord (cfg : Config) (f : Frame) : Record :=
  if f.b2 = cfg.typeCode .batteryLevel then
    .batteryLevel (be16 f.b4 f.b5) (be16 f.b8 f.b9) (be16 f.b10 f.b11)
  else if f.b2 = cfg.typeCode .minMaxVoltage then
    .minMaxVoltage (be16 f.b4 f.b5) f.b6 (be16 f.b7 f.b8) f.b9
  else if f.b2 = cfg.typeCode .minMaxTemperature then
    .minMaxTemperature f.b4 f.b5 f.b6 f.b7
  else if f.b2 = cfg.typeCode .mosStatus then
    .mosStatus f.b4 f.b5 f.b6 (be32 f.b8 f.b9 f.b10 f.b11)
  else if f.b2 = cfg.typeCode .packStatus then
    .packStatus f.b4
  else if f.b2 = cfg.typeCode .temperature then
    .temperature f.b4 f.b5 f.b6
  else .unrecognised f.b2

/-- The three conditions of R43 under which a candidate is accepted. -/
def validFrame (f : Frame) : Prop :=
  f.b0 = 0xA5 ∧ f.b1 = 0x01 ∧
    f.b12 = sum8 [f.b0, f.b1, f.b2, f.b3, f.b4, f.b5, f.b6, f.b7, f.b8, f.b9, f.b10, f.b11]

/-- What an event must be to have come from a DEC.STEP (R63): an ACC holds a valid frame and its record, a REJ_KIND a
byte that is not 0x01, a REJ_SUM two different sums. -/
def Event.valid (cfg : Config) : Event → Prop
  | .acc _ f r => validFrame f ∧ r = decodeRecord cfg f
  | .rejKind _ k => k ≠ 0x01
  | .rejSum _ computed stored => computed ≠ stored
  | .endExhausted => True
  | .endTruncated _ => True

/-- What an event publishes: an ACC its record's publishes, every other event nothing (R73, R84). -/
def Event.publishes (cfg : Config) : Event → List Publish
  | .acc _ _ r => Machine.publishes cfg r
  | .rejKind _ _ => []
  | .rejSum _ _ _ => []
  | .endExhausted => []
  | .endTruncated _ => []

/-- The buffer index an event is about; END_EXHAUSTED has none (R63). -/
def Event.position : Event → Option Nat
  | .acc p _ _ => some p
  | .rejKind p _ => some p
  | .rejSum p _ _ => some p
  | .endExhausted => none
  | .endTruncated p => some p

/-- R89's table, written with no reference to the commands' definitions: in `s` the command is refused with `r`. That
any raw byte is an operand that is no MsgKind is log entry 7's (DEDUCED). BUSY comes before TOO_LONG (R90). -/
inductive Refuses (s : State) : HostInput → CmdRefusal → Prop
  | notScanning (h : s.phase ≠ .scanning) : Refuses s .decStep .notScanning
  | busy (b : List Byte) (h : s.phase = .scanning) : Refuses s (.decLoad b) .busy
  | tooLong (b : List Byte) (n : Nat) (h : s.phase ≠ .scanning) (hc : s.cfg.bufCap = some n) (hb : n < b.length) :
    Refuses s (.decLoad b) .tooLong
  | badKind (b : Byte) : Refuses s (.enc (.raw b)) .badKind

/-- The invariant of the machine: what R17, R18, R71, R73 and R89 say of every state. -/
structure State.Inv (s : State) : Prop where
  /-- BUF is the bytes at indices 0 to LEN-1 and nothing else (R26): so LEN = |BUF|, and its form is canonical -/
  buf_range : s.buf.map Prod.fst = List.range s.len
  /-- LEN is within BUF_CAP (R8) -/
  len_fits : fitsCap s.cfg s.len = true
  /-- POS <= LEN (R71) -/
  pos_le : s.pos ≤ s.len
  /-- IDLE: no pass has been started since reset (R18, R100) -/
  idle : s.phase = .idle → s.buf = [] ∧ s.pos = 0 ∧ s.last = .none ∧ s.evt = []
  /-- SCANNING: the pass has not ended (R18) -/
  scanning : s.phase = .scanning → s.last ∈ [Last.none, .acc, .rejKind, .rejSum]
  /-- DONE: the last step ended the pass (R18) -/
  done : s.phase = .done → s.last ∈ [Last.endExhausted, .endTruncated]
  /-- REFUSED is set exactly when some command has been refused (R89) -/
  refused : s.refused = true ↔ s.refusals ≠ []
  /-- every event is one a DEC.STEP emits (R63) -/
  events : ∀ e ∈ s.evt, e.valid s.cfg
  /-- PUB is the publishes of EVT's ACC records, in order, and nothing else (R73) -/
  published : s.pub = s.evt.flatMap (Event.publishes s.cfg)
  /-- TX is whole request frames and nothing else (R34, R50) -/
  transmitted : ∃ ks : List MsgKind, s.tx = ks.flatMap (fun k => (requestFrame s.cfg k).bytes)

end Sys2Proof.Machine
end

