-- ==== Sys2Proof/Certificates/Slice0/Obligations.lean ====
section
/-! DEFINITION. The statements about the Frame Codec. Each docstring names the rule or section of spec/ it formalises. A
rule the spec marks as its own decision (D<n>) or as derived is cited by a statement of basis 'derived'. -/

open Sys2Proof Sys2Proof.Machine

/-! ### Requests -/

/-- 30_encoding.md R41: the request frame's thirteen bytes, its checksum being `sum8` of the header, which is
`(0x2D + t) mod 256` (the constant 0x2D is marked derived there). -/
def Obligations.RequestFrameLayout : Prop :=
  ∀ (cfg : Config) (k : MsgKind),
    (requestFrame cfg k).bytes =
      [0xA5, 0x80, cfg.typeCode k, 0x08, 0x00, 0x00, 0x00, 0x00, 0x00, 0x00, 0x00, 0x00,
        sum8 [0xA5, 0x80, cfg.typeCode k, 0x08]] ∧
    (requestFrame cfg k).b12.toNat = (0x2D + (cfg.typeCode k).toNat) % 256

/-- 30_encoding.md R42 (its consequence is marked derived there): the payload being zero, the header's sum is the sum of
the first twelve bytes, so a request satisfies the response checksum rule and only offset 1 tells it from a response. -/
def Obligations.RequestSatisfiesResponseChecksum : Prop :=
  ∀ (cfg : Config) (k : MsgKind),
    (requestFrame cfg k).b12 = (requestFrame cfg k).checksum ∧
    decodeResponse cfg (requestFrame cfg k) = .error (.badKind 0x80)

/-- 40_encoder.md R54: ENC of each kind, in every phase, appends the thirteen bytes to TX and changes nothing else; an
operand that is no MsgKind is refused (decision D12) and leaves the rest alone. That every raw byte, a type code
included, is such an operand is the model's choice (log entry 7, DEDUCED). This is also where each ENC instruction
completes: in every state. -/
def Obligations.EncAppendsTheRequestFrame : Prop :=
  ∀ s : State,
    (∀ x ∈ [(Instr.encBatteryLevel, MsgKind.batteryLevel), (.encMinMaxVoltage, .minMaxVoltage),
        (.encMinMaxTemperature, .minMaxTemperature), (.encMosStatus, .mosStatus), (.encPackStatus, .packStatus),
        (.encTemperature, .temperature)],
      exec x.1 s =
        .next
          { s with
            tx :=
              s.tx ++ [0xA5, 0x80, s.cfg.typeCode x.2, 0x08, 0x00, 0x00, 0x00, 0x00, 0x00, 0x00, 0x00, 0x00,
                sum8 [0xA5, 0x80, s.cfg.typeCode x.2, 0x08]] }) ∧
    (∀ k rest, s.inputs = .enc (.kind k) :: rest →
      step s =
        .next
          { s with
            inputs := rest
            tx :=
              s.tx ++ [0xA5, 0x80, s.cfg.typeCode k, 0x08, 0x00, 0x00, 0x00, 0x00, 0x00, 0x00, 0x00, 0x00,
                sum8 [0xA5, 0x80, s.cfg.typeCode k, 0x08]] }) ∧
    (∀ b rest, s.inputs = .enc (.raw b) :: rest →
      ∃ t, step s = .next t ∧ t.refused = true ∧ t.phase = s.phase ∧ t.pos = s.pos ∧ t.len = s.len ∧ t.last = s.last ∧
        t.buf = s.buf ∧ t.evt = s.evt ∧ t.pub = s.pub ∧ t.tx = s.tx)

/-- 40_encoder.md R55 to R60: the six frames under the default type codes, which the spec marks as general knowledge
(log entry 1, PRESUMED: the model's, not the source's). -/
def Obligations.EncDefaultFrames : Prop :=
  ∀ s : State, s.cfg = Config.default →
    exec .encBatteryLevel s = .next { s with tx := s.tx ++ [0xA5, 0x80, 0x90, 0x08, 0, 0, 0, 0, 0, 0, 0, 0, 0xBD] } ∧
    exec .encMinMaxVoltage s = .next { s with tx := s.tx ++ [0xA5, 0x80, 0x91, 0x08, 0, 0, 0, 0, 0, 0, 0, 0, 0xBE] } ∧
    exec .encMinMaxTemperature s =
      .next { s with tx := s.tx ++ [0xA5, 0x80, 0x92, 0x08, 0, 0, 0, 0, 0, 0, 0, 0, 0xBF] } ∧
    exec .encMosStatus s = .next { s with tx := s.tx ++ [0xA5, 0x80, 0x93, 0x08, 0, 0, 0, 0, 0, 0, 0, 0, 0xC0] } ∧
    exec .encPackStatus s = .next { s with tx := s.tx ++ [0xA5, 0x80, 0x94, 0x08, 0, 0, 0, 0, 0, 0, 0, 0, 0xC1] } ∧
    exec .encTemperature s = .next { s with tx := s.tx ++ [0xA5, 0x80, 0x96, 0x08, 0, 0, 0, 0, 0, 0, 0, 0, 0xC3] }

/-- R23, stated: what ENC appends depends on the kind and the instance alone, and every two frames are alike but for the
type byte and the checksum. -/
def Obligations.EncoderKeepsNoState : Prop :=
  (∀ (s s' : State) (k : MsgKind), s.cfg = s'.cfg →
    ∃ bs : List Byte, bs.length = 13 ∧ exec k.encInstr s = .next { s with tx := s.tx ++ bs } ∧
      exec k.encInstr s' = .next { s' with tx := s'.tx ++ bs }) ∧
  (∀ (cfg : Config) (k k' : MsgKind),
    { requestFrame cfg k with b2 := (requestFrame cfg k').b2, b12 := (requestFrame cfg k').b12 } = requestFrame cfg k')

/-- 40_encoder.md R61 (partly marked derived there): the header bytes, the checksum, that two kinds' frames differ
exactly at offsets 2 and 12, and that the scanner rejects every request frame by its kind byte. -/
def Obligations.RequestFramesDifferAtTypeAndChecksum : Prop :=
  ∀ cfg : Config, cfg.wf →
    (∀ k,
      (requestFrame cfg k).b0 = 0xA5 ∧ (requestFrame cfg k).b1 = 0x80 ∧ (requestFrame cfg k).b3 = 0x08 ∧
      (requestFrame cfg k).b12.toNat = (0xA5 + 0x80 + (cfg.typeCode k).toNat + 0x08) % 256 ∧
      decodeResponse cfg (requestFrame cfg k) = .error (.badKind 0x80)) ∧
    (∀ k k', k ≠ k' → ∀ i, i < 13 →
      ((requestFrame cfg k).bytes[i]? ≠ (requestFrame cfg k').bytes[i]? ↔ i = 2 ∨ i = 12))

/-! ### Arithmetic, decoding and encoding -/

/-- 00_scope.md R13 and 20_memory.md R28: `sum8`, `be16` and `be32` as numbers. -/
def Obligations.SumAndBigEndianAsNumbers : Prop :=
  (∀ xs : List Byte, (sum8 xs).toNat = (xs.map BitVec.toNat).sum % 256) ∧
  (∀ a b : Byte, (be16 a b).toNat = a.toNat * 256 + b.toNat) ∧
  (∀ a b c d : Byte,
    (be32 a b c d).toNat = a.toNat * 2 ^ 24 + b.toNat * 2 ^ 16 + c.toNat * 2 ^ 8 + d.toNat)

/-- 30_encoding.md R41, R43, R45, R46 and R53: decoding the encoding of every well-formed instruction gives it back,
whatever follows it and whatever the instance's (distinct) type codes. -/
def Obligations.DecodeOfEncodeIsTheInstruction : Prop :=
  ∀ (cfg : Config) (i : Instr) (rest : List Byte), cfg.wf → i.wf cfg = true →
    decode cfg ((encode cfg i).bytes ++ rest) = .ok i

/-- 30_encoding.md R41, R43, R45 and R46: no byte is dropped. Whatever bytes decode, in any instance, the instruction is
well formed and its encoding is exactly the first thirteen of them. -/
def Obligations.EncodeOfDecodeIsTheFrame : Prop :=
  ∀ (cfg : Config) (bs : List Byte) (i : Instr), decode cfg bs = .ok i →
    i.wf cfg = true ∧ (encode cfg i).bytes = bs.take 13

/-- R43, stated: a candidate is accepted exactly when its start byte, its frame kind and its checksum are right; the
type byte, offset 3 and the payload may be anything. -/
def Obligations.AcceptedExactlyWhenStartKindAndChecksumMatch : Prop :=
  ∀ (cfg : Config) (f : Frame),
    ((∃ i, decodeFrame cfg f = .ok i ∧ ∀ k : MsgKind, i ≠ k.encInstr) ↔
      f.b0 = 0xA5 ∧ f.b1 = 0x01 ∧
        f.b12 = sum8 [f.b0, f.b1, f.b2, f.b3, f.b4, f.b5, f.b6, f.b7, f.b8, f.b9, f.b10, f.b11]) ∧
    (f.b0 = 0xA5 →
      ((∃ i, decodeResponse cfg f = .ok i) ↔
        f.b1 = 0x01 ∧
          f.b12 = sum8 [f.b0, f.b1, f.b2, f.b3, f.b4, f.b5, f.b6, f.b7, f.b8, f.b9, f.b10, f.b11]))

/-- 30_encoding.md R41, R43, R46, R53 and 95_test_vectors.md: a word of each family, written out from its format under
the default type codes (log entry 1), decodes to the instruction it stands for. -/
def Obligations.WrittenOutFramesDecode : Prop :=
  decode Config.default [0xA5, 0x80, 0x93, 0x08, 0, 0, 0, 0, 0, 0, 0, 0, 0xC0] = .ok .encMosStatus ∧
  decode Config.default [0xA5, 0x01, 0x91, 0x08, 0x0D, 0x05, 0x03, 0x0C, 0xE4, 0x0A, 0x00, 0x00, 0x4E] =
    .ok
      (.decMinMaxVoltage
        { b3 := 0x08, vmaxRaw := 3333, vmaxCell := 3, vminRaw := 3300, vminCell := 10, b10 := 0, b11 := 0 }) ∧
  decode Config.default [0xA5, 0x01, 0x93, 0x08, 0x01, 0x01, 0x00, 0x00, 0x00, 0x01, 0x86, 0xA0, 0x6A] =
    .ok (.decMosStatus { b3 := 0x08, stateRaw := 1, chgRaw := 1, dsgRaw := 0, b7 := 0, capRaw := 100000 }) ∧
  decode Config.default [0xA5, 0x01, 0x94, 0x08, 0x10, 0, 0, 0, 0, 0, 0, 0, 0x53] =
    .error (.response (.badSum 0x52 0x53))

/-- 00_scope.md R9 (decision D8): in the default instance MOS_FLAG(b) is `b != 0`. -/
def Obligations.DefaultMosFlagIsNonzero : Prop := ∀ b : Byte, mosFlag Config.default b = true ↔ b ≠ 0

/-! ### The field decoders -/

/-- 42_field_decode.md R77: the record, and the publishes with their order and exact values (R84; decisions D9, D15,
D17). The advance of POS, LAST and the ACC event are the accept branch of 41_scanner.md R64 and R69 (D6, D7), which
exec runs at POS by the model's choice (log entry 6, DESIGN CHOICE). -/
def Obligations.DecBatteryLevelPublishes : Prop :=
  (∀ (x : BatteryLevelOps) (s : State), s.phase = .scanning →
    exec (.decBatteryLevel x) s =
      .next
        { s with
          pos := s.pos + 13
          last := .acc
          evt := s.evt ++ [.acc s.pos (encode s.cfg (.decBatteryLevel x)) (.batteryLevel x.vRaw x.iRaw x.socRaw)]
          pub :=
            s.pub ++ [(.voltage, .rational ((x.vRaw.toNat : Rat) / 10)),
              (.current, .rational ((((x.iRaw.toNat : Int) - 30000 : Int) : Rat) / 10)),
              (.batteryLevel, .rational ((x.socRaw.toNat : Rat) / 10))] }) ∧
  (∀ (cfg : Config) (f : Frame), cfg.wf → validFrame f → f.b2 = cfg.typeCode .batteryLevel →
    decodeResponse cfg f =
      .ok
        (.decBatteryLevel
          { b3 := f.b3, vRaw := be16 f.b4 f.b5, b6 := f.b6, b7 := f.b7, iRaw := be16 f.b8 f.b9,
            socRaw := be16 f.b10 f.b11 })) ∧
  (∀ raw : Half,
    0 ≤ (raw.toNat : Rat) / 10 ∧ (raw.toNat : Rat) / 10 ≤ 65535 / 10 ∧
    -3000 ≤ (((raw.toNat : Int) - 30000 : Int) : Rat) / 10 ∧
    (((raw.toNat : Int) - 30000 : Int) : Rat) / 10 ≤ 35535 / 10)

/-- 42_field_decode.md R78: the record, and the publishes with their order and exact values (R84; decisions D9, D17). The
advance of POS, LAST and the ACC event are the accept branch of 41_scanner.md R64 and R69 (D6, D7), which exec runs at
POS by the model's choice (log entry 6, DESIGN CHOICE). -/
def Obligations.DecMinMaxVoltagePublishes : Prop :=
  (∀ (x : MinMaxVoltageOps) (s : State), s.phase = .scanning →
    exec (.decMinMaxVoltage x) s =
      .next
        { s with
          pos := s.pos + 13
          last := .acc
          evt :=
            s.evt ++ [.acc s.pos (encode s.cfg (.decMinMaxVoltage x))
              (.minMaxVoltage x.vmaxRaw x.vmaxCell x.vminRaw x.vminCell)]
          pub :=
            s.pub ++ [(.maxCellVoltage, .rational ((x.vmaxRaw.toNat : Rat) / 1000)),
              (.maxCellIndex, .natural x.vmaxCell.toNat),
              (.minCellVoltage, .rational ((x.vminRaw.toNat : Rat) / 1000)),
              (.minCellIndex, .natural x.vminCell.toNat)] }) ∧
  (∀ (cfg : Config) (f : Frame), cfg.wf → validFrame f → f.b2 = cfg.typeCode .minMaxVoltage →
    decodeResponse cfg f =
      .ok
        (.decMinMaxVoltage
          { b3 := f.b3, vmaxRaw := be16 f.b4 f.b5, vmaxCell := f.b6, vminRaw := be16 f.b7 f.b8, vminCell := f.b9,
            b10 := f.b10, b11 := f.b11 })) ∧
  (∀ raw : Half, 0 ≤ (raw.toNat : Rat) / 1000 ∧ (raw.toNat : Rat) / 1000 ≤ 65535 / 1000)

/-- 42_field_decode.md R79: the record, and the publishes with their order and exact values (R84; decisions D9, D17). The
advance of POS, LAST and the ACC event are the accept branch of 41_scanner.md R64 and R69 (D6, D7), which exec runs at
POS by the model's choice (log entry 6, DESIGN CHOICE). -/
def Obligations.DecMinMaxTemperaturePublishes : Prop :=
  (∀ (x : MinMaxTemperatureOps) (s : State), s.phase = .scanning →
    exec (.decMinMaxTemperature x) s =
      .next
        { s with
          pos := s.pos + 13
          last := .acc
          evt :=
            s.evt ++ [.acc s.pos (encode s.cfg (.decMinMaxTemperature x))
              (.minMaxTemperature x.tmaxRaw x.tmaxProbe x.tminRaw x.tminProbe)]
          pub :=
            s.pub ++ [(.maxTemperature, .integer ((x.tmaxRaw.toNat : Int) - 40)),
              (.maxTemperatureProbe, .natural x.tmaxProbe.toNat),
              (.minTemperature, .integer ((x.tminRaw.toNat : Int) - 40)),
              (.minTemperatureProbe, .natural x.tminProbe.toNat)] }) ∧
  (∀ (cfg : Config) (f : Frame), cfg.wf → validFrame f → f.b2 = cfg.typeCode .minMaxTemperature →
    decodeResponse cfg f =
      .ok
        (.decMinMaxTemperature
          { b3 := f.b3, tmaxRaw := f.b4, tmaxProbe := f.b5, tminRaw := f.b6, tminProbe := f.b7, b8 := f.b8, b9 := f.b9,
            b10 := f.b10, b11 := f.b11 })) ∧
  (∀ raw : Byte, -40 ≤ (raw.toNat : Int) - 40 ∧ (raw.toNat : Int) - 40 ≤ 215)

/-- 42_field_decode.md R80: the record, and the publishes with their order and exact values (R84; decisions D8, D9, D16,
D17). MOS_FLAG is the instance's; the last clause is the default one of 00_scope.md R9. The advance of POS, LAST and
the ACC event are the accept branch of 41_scanner.md R64 and R69 (D6, D7), which exec runs at POS by the model's choice
(log entry 6, DESIGN CHOICE). -/
def Obligations.DecMosStatusPublishes : Prop :=
  (∀ (x : MosStatusOps) (s : State), s.phase = .scanning →
    exec (.decMosStatus x) s =
      .next
        { s with
          pos := s.pos + 13
          last := .acc
          evt :=
            s.evt ++ [.acc s.pos (encode s.cfg (.decMosStatus x)) (.mosStatus x.stateRaw x.chgRaw x.dsgRaw x.capRaw)]
          pub :=
            s.pub ++
              ((if x.stateRaw = 0 then [(.packState, .packState .idle)]
                else if x.stateRaw = 1 then [(.packState, .packState .charging)]
                else if x.stateRaw = 2 then [(.packState, .packState .discharging)]
                else []) ++
                [(.chargeMos, .flag (mosFlag s.cfg x.chgRaw)), (.dischargeMos, .flag (mosFlag s.cfg x.dsgRaw)),
                  (.remainingCapacity, .rational ((x.capRaw.toNat : Rat) / 1000))]) }) ∧
  (∀ (cfg : Config) (f : Frame), cfg.wf → validFrame f → f.b2 = cfg.typeCode .mosStatus →
    decodeResponse cfg f =
      .ok
        (.decMosStatus
          { b3 := f.b3, stateRaw := f.b4, chgRaw := f.b5, dsgRaw := f.b6, b7 := f.b7,
            capRaw := be32 f.b8 f.b9 f.b10 f.b11 })) ∧
  (∀ raw : Word, 0 ≤ (raw.toNat : Rat) / 1000 ∧ (raw.toNat : Rat) / 1000 ≤ 4294967295 / 1000) ∧
  (∀ (cfg : Config) (b : Byte), cfg.mosOff = [0] → (mosFlag cfg b = true ↔ b ≠ 0))

/-- 42_field_decode.md R81: the record, and the publishes with their order and exact values (R84; decisions D9). The
advance of POS, LAST and the ACC event are the accept branch of 41_scanner.md R64 and R69 (D6, D7), which exec runs at
POS by the model's choice (log entry 6, DESIGN CHOICE). -/
def Obligations.DecPackStatusPublishes : Prop :=
  (∀ (x : PackStatusOps) (s : State), s.phase = .scanning →
    exec (.decPackStatus x) s =
      .next
        { s with
          pos := s.pos + 13
          last := .acc
          evt := s.evt ++ [.acc s.pos (encode s.cfg (.decPackStatus x)) (.packStatus x.cells)]
          pub := s.pub ++ [(.cellCount, .natural x.cells.toNat)] }) ∧
  (∀ (cfg : Config) (f : Frame), cfg.wf → validFrame f → f.b2 = cfg.typeCode .packStatus →
    decodeResponse cfg f =
      .ok
        (.decPackStatus
          { b3 := f.b3, cells := f.b4, b5 := f.b5, b6 := f.b6, b7 := f.b7, b8 := f.b8, b9 := f.b9, b10 := f.b10,
            b11 := f.b11 }))

/-- 42_field_decode.md R82: the record, and the publishes with their order and exact values (R84; decisions D9, D17). The
advance of POS, LAST and the ACC event are the accept branch of 41_scanner.md R64 and R69 (D6, D7), which exec runs at
POS by the model's choice (log entry 6, DESIGN CHOICE). -/
def Obligations.DecTemperaturePublishes : Prop :=
  (∀ (x : TemperatureOps) (s : State), s.phase = .scanning →
    exec (.decTemperature x) s =
      .next
        { s with
          pos := s.pos + 13
          last := .acc
          evt := s.evt ++ [.acc s.pos (encode s.cfg (.decTemperature x)) (.temperature x.sel x.t1Raw x.t2Raw)]
          pub :=
            s.pub ++
              (if x.sel = 1 then
                [(.temperature1, .integer ((x.t1Raw.toNat : Int) - 40)),
                  (.temperature2, .integer ((x.t2Raw.toNat : Int) - 40))]
              else []) }) ∧
  (∀ (cfg : Config) (f : Frame), cfg.wf → validFrame f → f.b2 = cfg.typeCode .temperature →
    decodeResponse cfg f =
      .ok
        (.decTemperature
          { b3 := f.b3, sel := f.b4, t1Raw := f.b5, t2Raw := f.b6, b7 := f.b7, b8 := f.b8, b9 := f.b9, b10 := f.b10,
            b11 := f.b11 }))

/-- 42_field_decode.md R83: accepted, thirteen bytes consumed, nothing published; the record is decision D7's. LAST and
the ACC event are the accept branch of 41_scanner.md R64 and R69 (D6, D7), which exec runs at POS by the model's choice
(log entry 6, DESIGN CHOICE). -/
def Obligations.DecUnrecognisedPublishesNothing : Prop :=
  (∀ (x : UnrecognisedOps) (s : State), s.phase = .scanning →
    exec (.decUnrecognised x) s =
      .next
        { s with
          pos := s.pos + 13
          last := .acc
          evt := s.evt ++ [.acc s.pos (encode s.cfg (.decUnrecognised x)) (.unrecognised x.t)] }) ∧
  (∀ (cfg : Config) (f : Frame), validFrame f → (∀ k, f.b2 ≠ cfg.typeCode k) →
    decodeResponse cfg f =
      .ok
        (.decUnrecognised
          { t := f.b2, b3 := f.b3, b4 := f.b4, b5 := f.b5, b6 := f.b6, b7 := f.b7, b8 := f.b8, b9 := f.b9,
            b10 := f.b10, b11 := f.b11 }))

/-- 42_field_decode.md R76 and R86 (decision D7): whatever the type codes, running the instruction a valid frame decodes
to writes the ACC event of that very frame with the record `DECODE(F)`, and its publishes, and nothing else. That exec
itself runs the accept branch of 41_scanner.md R64 and R69 (D6) at POS is the model's choice (log entry 6, DESIGN
CHOICE). -/
def Obligations.AcceptedFrameIsRecordedByDECODE : Prop :=
  ∀ (s : State) (f : Frame) (i : Instr), s.phase = .scanning → validFrame f → decodeResponse s.cfg f = .ok i →
    exec i s =
      .next
        { s with
          pos := s.pos + 13
          last := .acc
          evt := s.evt ++ [.acc s.pos f (decodeRecord s.cfg f)]
          pub := s.pub ++ publishes s.cfg (decodeRecord s.cfg f) }

/-- 60_exceptions.md R89 and 42_field_decode.md R86 (decision D3; that `exec` checks the phase once more is the model's,
log entry 6): a field decoder outside SCANNING is the refusal of a DEC.STEP. -/
def Obligations.DecOutsideScanningIsRefused : Prop :=
  ∀ (i : Instr) (s : State), (∀ k : MsgKind, i ≠ k.encInstr) → s.phase ≠ .scanning →
    exec i s = .next { s with refused := true, refusals := s.refusals ++ [.notScanning] }

/-- 42_field_decode.md R84 (decisions D9, D17): every channel carries values of its domain only. -/
def Obligations.ChannelsCarryTheirDomains : Prop :=
  ∀ (cfg : Config) (r : Record) (ch : Channel) (v : Value), (ch, v) ∈ publishes cfg r →
    (ch ∈ [Channel.voltage, .current, .batteryLevel] → ∃ z : Int, v = .rational ((z : Rat) / 10)) ∧
    (ch ∈ [Channel.maxCellVoltage, .minCellVoltage, .remainingCapacity] → ∃ z : Int, v = .rational ((z : Rat) / 1000)) ∧
    (ch ∈ [Channel.maxCellIndex, .minCellIndex, .maxTemperatureProbe, .minTemperatureProbe, .cellCount] →
      ∃ n : Nat, n ≤ 255 ∧ v = .natural n) ∧
    (ch ∈ [Channel.maxTemperature, .minTemperature, .temperature1, .temperature2] →
      ∃ z : Int, -40 ≤ z ∧ z ≤ 215 ∧ v = .integer z) ∧
    (ch = .packState → ∃ p, v = .packState p) ∧
    (ch ∈ [Channel.chargeMos, .dischargeMos] → ∃ b, v = .flag b)

/-! ### The step -/

/-- 30_encoding.md R51 and 41_scanner.md R64: a step runs the decoded instruction. For ENC it is the one the kind's
request frame decodes to; for DEC.STEP, and for a turn of DEC.RUN, it is the one the candidate decodes to, run with
POS at the candidate. The model's choices (DESIGN CHOICE): the queue the step takes the input from (log entry 4), that
DEC.RUN takes one turn a step and stays in the queue (log entry 5), and that exec runs at the candidate with POS moved
there (log entry 6). -/
def Obligations.StepRunsTheDecodedInstruction : Prop :=
  ∀ (s : State) (rest : List HostInput),
    (∀ k, s.cfg.wf → s.inputs = .enc (.kind k) :: rest →
      ∃ i, decode s.cfg (requestFrame s.cfg k).bytes = .ok i ∧ step s = exec i { s with inputs := rest }) ∧
    (∀ p f i, s.phase = .scanning → IsCandidate s p → p + 13 ≤ s.len → HoldsFrame s p f → f.b1 ≠ 0x80 →
      decode s.cfg f.bytes = .ok i →
      (s.inputs = .decStep :: rest → step s = exec i { s with inputs := rest, pos := p }) ∧
      (s.inputs = .decRun :: rest → step s = exec i { s with pos := p }))

/-- 41_scanner.md R65 (the final cursor is decision D14): no start byte at or after POS. -/
def Obligations.StepEndsWhenNoStartByteIsLeft : Prop :=
  ∀ (s : State) (rest : List HostInput), s.inputs = .decStep :: rest → s.phase = .scanning →
    (∀ i, s.pos ≤ i → i < s.len → s.buf.read i ≠ some 0xA5) →
    step s =
      .next
        { s with
          inputs := rest, phase := .done, pos := s.len, last := .endExhausted, evt := s.evt ++ [.endExhausted] }

/-- 41_scanner.md R66: fewer than 13 bytes from the candidate on, whatever they hold; 13 are not truncated (marked derived
there). -/
def Obligations.StepEndsOnATruncatedFrame : Prop :=
  ∀ (s : State) (rest : List HostInput) (p : Nat), s.inputs = .decStep :: rest → s.phase = .scanning → IsCandidate s p →
    (s.len - p < 13 →
      step s =
        .next
          { s with
            inputs := rest, phase := .done, pos := p, last := .endTruncated, evt := s.evt ++ [.endTruncated p] }) ∧
    (¬ s.len - p < 13 → ∀ t, step s = .next t → t.phase = .scanning ∧ p < t.pos)

/-- R67, stated: the frame-kind test fails; the checksum plays no part. -/
def Obligations.StepRejectsAWrongFrameKind : Prop :=
  ∀ (s : State) (rest : List HostInput) (p : Nat) (f : Frame), s.inputs = .decStep :: rest → s.phase = .scanning →
    IsCandidate s p → p + 13 ≤ s.len → HoldsFrame s p f → f.b1 ≠ 0x01 →
    step s =
      .next
        { s with inputs := rest, pos := p + 1, last := .rejKind, evt := s.evt ++ [.rejKind p f.b1] }

/-- R68, stated: the checksum test fails; the sum takes in all of the first twelve bytes. -/
def Obligations.StepRejectsAWrongChecksum : Prop :=
  ∀ (s : State) (rest : List HostInput) (p : Nat) (f : Frame), s.inputs = .decStep :: rest → s.phase = .scanning →
    IsCandidate s p → p + 13 ≤ s.len → HoldsFrame s p f → f.b1 = 0x01 →
    sum8 [f.b0, f.b1, f.b2, f.b3, f.b4, f.b5, f.b6, f.b7, f.b8, f.b9, f.b10, f.b11] ≠ f.b12 →
    step s =
      .next
        { s with
          inputs := rest
          pos := p + 1
          last := .rejSum
          evt :=
            s.evt ++ [.rejSum p
              (sum8 [f.b0, f.b1, f.b2, f.b3, f.b4, f.b5, f.b6, f.b7, f.b8, f.b9, f.b10, f.b11]) f.b12] }

/-- R69, stated: both tests pass. POS passes the frame, the ACC event holds its bytes and its record, and the record's
measurements are published; an unrecognised type, or a temperature selector other than 1, publishes none. -/
def Obligations.StepAcceptsAValidFrame : Prop :=
  ∀ (s : State) (rest : List HostInput) (p : Nat) (f : Frame), s.inputs = .decStep :: rest → s.phase = .scanning →
    IsCandidate s p → p + 13 ≤ s.len → HoldsFrame s p f → validFrame f →
    step s =
      .next
        { s with
          inputs := rest
          pos := p + 13
          last := .acc
          evt := s.evt ++ [.acc p f (decodeRecord s.cfg f)]
          pub := s.pub ++ publishes s.cfg (decodeRecord s.cfg f) } ∧
    ((∀ k, f.b2 ≠ s.cfg.typeCode k) → publishes s.cfg (decodeRecord s.cfg f) = []) ∧
    (s.cfg.wf → f.b2 = s.cfg.typeCode .temperature → f.b4 ≠ 1 → publishes s.cfg (decodeRecord s.cfg f) = [])

/-- 60_exceptions.md R89 and R90 (decisions D3, D6, D12): the four refusals; each changes REFUSED alone (and the model's
record of which it was, log entry 3), and BUSY is tested before TOO_LONG. That every raw byte, a type code included, is
BAD_KIND is the model's choice (log entry 7, DEDUCED). -/
def Obligations.RefusedCommandsChangeOnlyTheMark : Prop :=
  ∀ (s : State) (rest : List HostInput),
    (s.inputs = .decStep :: rest → s.phase ≠ .scanning →
      step s = .next { s with inputs := rest, refused := true, refusals := s.refusals ++ [.notScanning] }) ∧
    (∀ b, s.inputs = .decLoad b :: rest → s.phase = .scanning →
      step s = .next { s with inputs := rest, refused := true, refusals := s.refusals ++ [.busy] }) ∧
    (∀ b c, s.inputs = .decLoad b :: rest → s.phase ≠ .scanning → s.cfg.bufCap = some c → c < b.length →
      step s = .next { s with inputs := rest, refused := true, refusals := s.refusals ++ [.tooLong] }) ∧
    (∀ b, s.inputs = .enc (.raw b) :: rest →
      step s = .next { s with inputs := rest, refused := true, refusals := s.refusals ++ [.badKind] })

/-- 41_scanner.md R62 (decisions D3, D4): a DEC.LOAD that is not refused latches the host's bytes, each at its index and
none beyond the last, starts a pass, and changes nothing else. -/
def Obligations.LoadLatchesTheBuffer : Prop :=
  ∀ (s : State) (rest : List HostInput) (b : List Byte), s.inputs = .decLoad b :: rest → s.phase ≠ .scanning →
    (∀ c, s.cfg.bufCap = some c → b.length ≤ c) →
    ∃ m : Memory, m.wf ∧ (∀ i, m.read i = b[i]?) ∧
      step s =
        .next
          { s with inputs := rest, buf := m, len := b.length, pos := 0, last := .none, phase := .scanning }

/-- 30_encoding.md R52 (decision D13): DEC.RUN is DEC.STEP while PHASE is SCANNING; each turn is one step (log entry 5). -/
def Obligations.RunIsStepsWhileScanning : Prop :=
  ∀ (s : State) (rest : List HostInput), s.inputs = .decRun :: rest →
    (s.phase = .scanning → step s = step { s with inputs := .decStep :: s.inputs }) ∧
    (s.phase ≠ .scanning → step s = .next { s with inputs := rest })

/-- 70_reset_and_hazards.md R101 (decision D5): a reset, in any phase, leaves every element at its reset value, with no
END event, and the instance's parameters as they are; the inputs the host issues later still come (log entry 4). -/
def Obligations.ResetAbandonsThePass : Prop :=
  ∀ (s : State) (rest : List HostInput), s.inputs = .reset :: rest →
    ∃ t, step s = .next t ∧ t.phase = .idle ∧ t.buf = [] ∧ t.len = 0 ∧ t.pos = 0 ∧ t.last = .none ∧ t.evt = [] ∧
      t.pub = [] ∧ t.tx = [] ∧ t.refused = false ∧ t.refusals = [] ∧ t.cfg = s.cfg ∧ t.inputs = rest

/-- 70_reset_and_hazards.md R100 (decision D5): the state after reset. That no input waits, and that no refusal is
recorded, are the model's own fields (log entries 3 and 4). -/
def Obligations.ResetValues : Prop :=
  State.reset.phase = .idle ∧ State.reset.buf = [] ∧ State.reset.len = 0 ∧ State.reset.pos = 0 ∧
  State.reset.last = .none ∧ State.reset.evt = [] ∧ State.reset.pub = [] ∧ State.reset.tx = [] ∧
  State.reset.refused = false ∧ State.reset.refusals = [] ∧ State.reset.inputs = []

/-- 60_exceptions.md R91 and R94 (decision D1): the block does nothing of its own accord. That a step with no input
answers the same state is the model's (log entry 4). -/
def Obligations.NothingHappensUnasked : Prop := ∀ s : State, s.inputs = [] → step s = .next s

/-- 10_state.md R21 (decision D6): the status view, its codes, and the codes that never occur. -/
def Obligations.StatusViewCodes : Prop :=
  (∀ s : State,
    s.statusView.pos = s.pos ∧ s.statusView.len = s.len ∧ s.statusView.phase ≠ 3 ∧ s.statusView.last ≠ 6 ∧
    s.statusView.last ≠ 7 ∧
    (s.statusView.phase = 0 ↔ s.phase = .idle) ∧ (s.statusView.phase = 1 ↔ s.phase = .scanning) ∧
    (s.statusView.phase = 2 ↔ s.phase = .done) ∧
    (s.statusView.last = 0 ↔ s.last = .none) ∧ (s.statusView.last = 1 ↔ s.last = .acc) ∧
    (s.statusView.last = 2 ↔ s.last = .rejKind) ∧ (s.statusView.last = 3 ↔ s.last = .rejSum) ∧
    (s.statusView.last = 4 ↔ s.last = .endExhausted) ∧ (s.statusView.last = 5 ↔ s.last = .endTruncated))

/-! ### What every step keeps -/

/-- 10_state.md R17 and 60_exceptions.md R89 (decisions D1, D3, D5, D12): no element changes but by its writers. REFUSED
is sticky and only a refused command sets it, adding its refusal to the model's record of them (log entry 3, DEDUCED).
Reset is apart: it writes every element. That an ENC of a raw type code is refused, and so leaves TX alone, is the
model's choice (log entry 7, DEDUCED). -/
def Obligations.ElementsChangeOnlyByTheirWriters : Prop :=
  ∀ (s t : State) (c : HostInput) (rest : List HostInput), s.inputs = c :: rest → c ≠ .reset → step s = .next t →
    (t.buf ≠ s.buf ∨ t.len ≠ s.len → ∃ b, c = .decLoad b) ∧
    (t.phase ≠ s.phase ∨ t.pos ≠ s.pos ∨ t.last ≠ s.last → (∃ b, c = .decLoad b) ∨ c = .decStep ∨ c = .decRun) ∧
    (t.evt ≠ s.evt ∨ t.pub ≠ s.pub → c = .decStep ∨ c = .decRun) ∧
    (t.tx ≠ s.tx → ∃ k, c = .enc (.kind k)) ∧
    (s.refused = true → t.refused = true) ∧
    (t.refused ≠ s.refused ∨ t.refusals ≠ s.refusals →
      ∃ r, Refuses s c r ∧ t.refused = true ∧ t.refusals = s.refusals ++ [r])

/-- 10_state.md R24 (decision D7): the streams are histories; nothing but a reset ever takes anything from them. -/
def Obligations.StreamsOnlyGrow : Prop :=
  ∀ s t : State, step s = .next t → s.inputs.head? ≠ some .reset → s.evt <+: t.evt ∧ s.pub <+: t.pub ∧ s.tx <+: t.tx

/-- 10_state.md R21 and 70_reset_and_hazards.md R100 (decision D5): no step, a reset included, changes the instance. -/
def Obligations.NoStepChangesTheInstance : Prop := ∀ s t : State, step s = .next t → t.cfg = s.cfg

/-- 10_state.md R20 (decision D6): a step in which a DEC.STEP runs, a turn of DEC.RUN included (log entry 5, DESIGN
CHOICE), appends one event and sets LAST to its kind; a DEC.LOAD sets LAST to NONE when it is not refused; ENC leaves
it. -/
def Obligations.LastIsTheKindOfTheEvent : Prop :=
  ∀ s t : State, step s = .next t →
    (s.inputs.head? = some .decStep ∨ s.inputs.head? = some .decRun → s.phase = .scanning →
      ∃ e, t.evt = s.evt ++ [e] ∧ t.last = e.last) ∧
    (∀ b, s.inputs.head? = some (.decLoad b) → t.refusals = s.refusals → t.last = .none) ∧
    (∀ op, s.inputs.head? = some (.enc op) → t.last = s.last)

/-- 70_reset_and_hazards.md R100: the invariant holds after reset, in every instance. -/
def Obligations.InvAfterReset : Prop := (∀ cfg : Config, (State.resetOf cfg).Inv) ∧ State.reset.Inv

/-- 10_state.md R17 and R18, 41_scanner.md R71 and R73, 60_exceptions.md R89: every step keeps the invariant, from every
state that has it: LEN is |BUF| and within BUF_CAP, POS <= LEN, PHASE and LAST agree, REFUSED agrees with the
refusals, every event is one a DEC.STEP emits, PUB is the publishes of EVT's records, TX is whole request frames. -/
def Obligations.StepKeepsInv : Prop := ∀ s t : State, s.Inv → step s = .next t → t.Inv

/-- 60_exceptions.md R87, R92 and 41_scanner.md R71 (derived there from R64): no outcome is fatal. From every state that
has the invariant, whatever the input, a step answers Host.Outcome.next, never .fault (a read beyond LEN) and never
.refused. A command that R89 refuses is among these next states: R89 says that the block takes no step for it, and that
this is a next state with REFUSED set is the model's reading (log entry 3, DEDUCED). -/
def Obligations.NoStepIsFatal : Prop := ∀ s : State, s.Inv → ∃ t, step s = .next t

/-- 20_memory.md R26 and R36: under the invariant exactly the indices 0 to LEN-1 hold a byte. -/
def Obligations.BufferHoldsExactlyTheIndicesBelowLen : Prop :=
  ∀ s : State, s.Inv → s.buf.wf ∧ ∀ a, (∃ b, s.buf.read a = some b) ↔ a < s.len

/-- 41_scanner.md R73 and 42_field_decode.md R86 (both marked derived): whatever the state, a step that publishes anything
has accepted a candidate of its buffer with the right start, kind and checksum, and publishes its record. -/
def Obligations.NothingIsPublishedUnvalidated : Prop :=
  ∀ s t : State, step s = .next t → s.inputs.head? ≠ some .reset →
    ∃ ps, t.pub = s.pub ++ ps ∧
      (ps ≠ [] →
        ∃ p f, IsCandidate s p ∧ HoldsFrame s p f ∧ validFrame f ∧ ps = publishes s.cfg (decodeRecord s.cfg f) ∧
          t.evt = s.evt ++ [.acc p f (decodeRecord s.cfg f)])

/-- R19, stated: a DEC.STEP either ends the pass or moves POS strictly forward, to one past a rejected candidate or
thirteen past an accepted one; POS never decreases and never passes LEN. -/
def Obligations.CursorMovesForwardWithinLen : Prop :=
  ∀ (s : State) (rest : List HostInput), s.Inv → s.inputs = .decStep :: rest → s.phase = .scanning →
    ∃ t, step s = .next t ∧ s.pos ≤ t.pos ∧ t.pos ≤ t.len ∧ t.len = s.len ∧
      (t.phase = .done ∨
        t.phase = .scanning ∧ s.pos < t.pos ∧
          ∃ p, IsCandidate s p ∧
            ((t.last = .rejKind ∨ t.last = .rejSum) ∧ t.pos = p + 1 ∨ t.last = .acc ∧ t.pos = p + 13))

/-- 41_scanner.md R72 (marked derived) and 70_reset_and_hazards.md R109: a DEC.RUN ends its pass within
max(0, LEN - POS - 12) + 1 steps, each with one event, of which exactly the last is an END. The steps counted are the
model's: one turn of DEC.RUN each, with the command still in the queue at the end (log entries 4 and 5, DESIGN CHOICE).
-/
def Obligations.EveryPassEnds : Prop :=
  ∀ (s : State) (rest : List HostInput), s.Inv → s.phase = .scanning → s.inputs = .decRun :: rest →
    ∃ (t : State) (es : List Event) (e : Event),
      core.run (es.length + 1) s = .next t ∧ es.length ≤ s.len - s.pos - 12 ∧ t.phase = .done ∧ t.inputs = s.inputs ∧
      t.evt = s.evt ++ (es ++ [e]) ∧ e.isEnd = true ∧ ∀ x ∈ es, x.isEnd = false

/-- 41_scanner.md R72 and R74 (marked derived): the events of a pass stand at strictly rising positions, and whatever
follows an accepted frame is at least thirteen bytes on: accepted frames never overlap. The pass is a DEC.RUN of one
turn a step (log entries 4 and 5, DESIGN CHOICE). -/
def Obligations.PassPositionsRiseAndFramesNeverOverlap : Prop :=
  ∀ (s t : State) (n : Nat), s.phase = .scanning → s.inputs = [.decRun] → core.run n s = .next t →
    ∃ es : List Event, t.evt = s.evt ++ es ∧
      es.Pairwise (fun e e' => ∀ p p', e.position = some p → e'.position = some p' →
        p < p' ∧ (e.last = .acc → p + 13 ≤ p'))

/-- 10_state.md R25: no hidden state survives a pass. Two states of one instance, whatever passes, requests and refusals lie
behind them, go through a DEC.LOAD and DEC.RUN of the same bytes with the same events, the same publishes and the
same buffer and status view, after any number of the model's steps (log entries 4 and 5, DESIGN CHOICE). -/
def Obligations.NoStateCarriesOverBetweenPasses : Prop :=
  ∀ (s s' : State) (b : List Byte) (n : Nat), s.Inv → s'.Inv → s.cfg = s'.cfg → s.phase ≠ .scanning →
    s'.phase ≠ .scanning → (∀ c, s.cfg.bufCap = some c → b.length ≤ c) → s.inputs = [.decLoad b, .decRun] →
    s'.inputs = [.decLoad b, .decRun] →
    ∃ (t t' : State) (es : List Event) (ps : List Publish),
      core.run (n + 1) s = .next t ∧ core.run (n + 1) s' = .next t' ∧
      t.evt = s.evt ++ es ∧ t'.evt = s'.evt ++ es ∧ t.pub = s.pub ++ ps ∧ t'.pub = s'.pub ++ ps ∧
      t.buf = t'.buf ∧ t.statusView = t'.statusView ∧ t.tx = s.tx ∧ t'.tx = s'.tx

/-! ### Error detection -/

/-- 95_test_vectors.md W4 and S19, from 41_scanner.md R68: changing any one byte from offset 2 on of a frame that would be
accepted, in any way, gets it rejected by its checksum. -/
def Obligations.OneChangedByteIsRejected : Prop :=
  ∀ (cfg : Config) (f g : Frame) (k : Nat) (v : Byte), validFrame f → 2 ≤ k → k ≤ 12 → g.bytes = f.bytes.set k v →
    f.bytes[k]? ≠ some v → ∃ computed stored, decodeResponse cfg g = .error (.badSum computed stored)

/-- 70_reset_and_hazards.md R106 (marked derived; under the default type codes, log entry 1): an echoed request frame is
rejected at its start byte, and the next candidate lies beyond it, so it hides no response that follows. -/
def Obligations.EchoedRequestIsRejectedAndHidesNothing : Prop :=
  ∀ (s : State) (rest : List HostInput) (p : Nat) (k : MsgKind), s.cfg = Config.default → s.inputs = .decStep :: rest →
    s.phase = .scanning → IsCandidate s p → p + 13 ≤ s.len → HoldsFrame s p (requestFrame s.cfg k) →
    ∃ t, step s = .next t ∧ t.evt = s.evt ++ [.rejKind p 0x80] ∧ t.pub = s.pub ∧ t.pos = p + 1 ∧
      ∀ q, IsCandidate t q → p + 13 ≤ q
end

