-- ==== Sys2Proof/Laws/Codec.lean ====
section
/-! SUPPORT. The helpers, the decoder and the encoder of Sys2Proof/Decode.lean, one lemma for what each does. -/

namespace Sys2Proof

/-! ### Byte order and sums -/

theorem append_byte_toNat {n : Nat} (v : BitVec n) (b : Byte) : (v ++ b).toNat = v.toNat * 256 + b.toNat := by
  rw [BitVec.toNat_append, Nat.shiftLeft_eq, ← Nat.mul_comm, ← Nat.two_pow_add_eq_or_of_lt b.isLt, Nat.mul_comm]

theorem be16_toNat (a b : Byte) : (be16 a b).toNat = a.toNat * 256 + b.toNat := append_byte_toNat a b

@[simp] theorem be16_hi_lo (v : Half) : be16 (hi16 v) (lo16 v) = v := by
  apply BitVec.eq_of_toNat_eq
  have := v.isLt
  rw [be16_toNat]
  simp only [hi16, lo16, BitVec.extractLsb'_toNat, Nat.shiftRight_eq_div_pow]
  omega

@[simp] theorem hi16_be16 (a b : Byte) : hi16 (be16 a b) = a := by
  apply BitVec.eq_of_toNat_eq
  have := a.isLt
  have := b.isLt
  simp only [hi16, BitVec.extractLsb'_toNat, Nat.shiftRight_eq_div_pow, be16_toNat]
  omega

@[simp] theorem lo16_be16 (a b : Byte) : lo16 (be16 a b) = b := by
  apply BitVec.eq_of_toNat_eq
  have := b.isLt
  simp only [lo16, BitVec.extractLsb'_toNat, Nat.shiftRight_eq_div_pow, be16_toNat]
  omega

theorem be32_toNat (a b c d : Byte) :
    (be32 a b c d).toNat = a.toNat * 2 ^ 24 + b.toNat * 2 ^ 16 + c.toNat * 2 ^ 8 + d.toNat := by
  have h : (be32 a b c d).toNat = ((a.toNat * 256 + b.toNat) * 256 + c.toNat) * 256 + d.toNat := by
    rw [be32, append_byte_toNat, append_byte_toNat, append_byte_toNat]
  rw [h]
  ring

@[simp] theorem be32_byte32 (v : Word) : be32 (byte32 v 0) (byte32 v 1) (byte32 v 2) (byte32 v 3) = v := by
  apply BitVec.eq_of_toNat_eq
  have := v.isLt
  rw [be32_toNat]
  simp only [byte32, BitVec.extractLsb'_toNat, Nat.shiftRight_eq_div_pow]
  omega

theorem byte32_be32 (a b c d : Byte) :
    byte32 (be32 a b c d) 0 = a ∧ byte32 (be32 a b c d) 1 = b ∧ byte32 (be32 a b c d) 2 = c ∧
      byte32 (be32 a b c d) 3 = d := by
  have ha := a.isLt
  have hb := b.isLt
  have hc := c.isLt
  have hd := d.isLt
  refine ⟨?_, ?_, ?_, ?_⟩ <;> apply BitVec.eq_of_toNat_eq <;>
    simp only [byte32, BitVec.extractLsb'_toNat, Nat.shiftRight_eq_div_pow, be32_toNat] <;> omega

theorem sum8_toNat (xs : List Byte) : (sum8 xs).toNat = (xs.map BitVec.toNat).sum % 256 := by
  simp [sum8]

@[simp] theorem sum8_nil : sum8 [] = 0 := rfl

@[simp] theorem sum8_cons (x : Byte) (xs : List Byte) : sum8 (x :: xs) = x + sum8 xs := by
  apply BitVec.eq_of_toNat_eq
  simp [sum8_toNat, BitVec.toNat_add]

/-! ### Frames -/

@[simp] theorem Frame.bytes_length (f : Frame) : f.bytes.length = 13 := rfl

@[simp] theorem Frame.ofBytes_bytes_append (f : Frame) (rest : List Byte) : Frame.ofBytes (f.bytes ++ rest) = some f := rfl

@[simp] theorem Frame.ofBytes_bytes (f : Frame) : Frame.ofBytes f.bytes = some f := rfl

/-- What `Frame.ofBytes` reads: the first 13 bytes. -/
theorem Frame.ofBytes_eq_some {bs : List Byte} {f : Frame} (h : Frame.ofBytes bs = some f) :
    ∃ rest, bs = f.bytes ++ rest := by
  unfold Frame.ofBytes at h
  split at h
  · cases h
    exact ⟨_, rfl⟩
  · cases h

theorem Frame.ofBytes_isSome {bs : List Byte} (h : 13 ≤ bs.length) : ∃ f, Frame.ofBytes bs = some f := by
  match bs, h with
  | b0 :: b1 :: b2 :: b3 :: b4 :: b5 :: b6 :: b7 :: b8 :: b9 :: b10 :: b11 :: b12 :: _, _ => exact ⟨_, rfl⟩

theorem Frame.bytes_injective {f g : Frame} (h : f.bytes = g.bytes) : f = g := by
  cases f
  cases g
  simpa [Frame.bytes] using h

/-! ### Type codes -/

theorem Config.wf_iff (cfg : Config) : cfg.wf ↔ Function.Injective cfg.typeCode := by
  constructor
  · intro h a b hab
    simp only [Config.wf, MsgKind.all, List.map_cons, List.map_nil, List.nodup_cons, List.mem_cons,
      List.not_mem_nil, not_or, or_false] at h
    cases a <;> cases b <;> simp_all
  · intro h
    exact List.Nodup.map h (by decide)

@[simp] theorem MsgKind.mem_all (k : MsgKind) : k ∈ MsgKind.all := by
  cases k <;> decide

/-- A kind is found only for its own byte, whatever the instance. -/
theorem Config.kindOf_eq_some {cfg : Config} {t : Byte} {k : MsgKind} (h : cfg.kindOf t = some k) : cfg.typeCode k = t := by
  simpa using List.find?_some h

theorem Config.kindOf_eq_none (cfg : Config) (t : Byte) : cfg.kindOf t = none ↔ ∀ k, cfg.typeCode k ≠ t := by
  simp [Config.kindOf]

/-- In a well-formed instance every kind's byte names it. -/
theorem Config.kindOf_typeCode {cfg : Config} (h : cfg.wf) (k : MsgKind) : cfg.kindOf (cfg.typeCode k) = some k := by
  cases e : cfg.kindOf (cfg.typeCode k) with
  | none => exact absurd rfl ((cfg.kindOf_eq_none _).1 e k)
  | some j => rw [(cfg.wf_iff.1 h) (Config.kindOf_eq_some e)]

theorem Config.isTypeCode_iff (cfg : Config) (t : Byte) : cfg.isTypeCode t = true ↔ ∃ k, cfg.typeCode k = t := by
  simp [Config.isTypeCode]

theorem Config.default_wf : Config.default.wf := by decide

/-! ### Requests -/

theorem encode_encInstr (cfg : Config) (k : MsgKind) : encode cfg k.encInstr = requestFrame cfg k := by
  cases k <;> rfl

theorem requestFrame_b12 (cfg : Config) (k : MsgKind) : (requestFrame cfg k).b12 = 0x2D + cfg.typeCode k := by
  simp only [requestFrame, sum8_cons, sum8_nil, startByte, reqAddr, reqLen]
  bv_omega

/-- The payload is zero, so the header's sum is the whole frame's (R42). -/
theorem requestFrame_checksum (cfg : Config) (k : MsgKind) : (requestFrame cfg k).checksum = (requestFrame cfg k).b12 := by
  simp only [requestFrame, Frame.checksum, sum8_cons, sum8_nil]
  bv_omega

/-- The scanner rejects a request frame by its second byte (R61). -/
theorem decodeResponse_requestFrame (cfg : Config) (k : MsgKind) :
    decodeResponse cfg (requestFrame cfg k) = .error (.badKind 0x80) := rfl

theorem decodeRequest_requestFrame {cfg : Config} (h : cfg.wf) (k : MsgKind) :
    decodeRequest cfg (requestFrame cfg k) = .ok k.encInstr := by
  have hk : MsgKind.all.find? (fun j => requestFrame cfg j = requestFrame cfg k) = some k := by
    have hf : (fun j => decide (requestFrame cfg j = requestFrame cfg k)) = fun j => decide (cfg.typeCode j = cfg.typeCode k) := by
      funext j
      refine decide_eq_decide.2 ⟨fun e => congrArg Frame.b2 e, fun e => by simp [requestFrame, e]⟩
    rw [hf]
    exact Config.kindOf_typeCode h k
  simp [decodeRequest, hk]

/-! ### Responses -/

theorem responseFrame_checksum (t b3 b4 b5 b6 b7 b8 b9 b10 b11 : Byte) :
    (responseFrame t b3 b4 b5 b6 b7 b8 b9 b10 b11).checksum = (responseFrame t b3 b4 b5 b6 b7 b8 b9 b10 b11).b12 := rfl

/-- A frame with the start byte, the response kind and its own checksum is the response frame of its other bytes. -/
theorem eq_responseFrame {f : Frame} (h0 : f.b0 = startByte) (h1 : f.b1 = rspKind) (h12 : f.checksum = f.b12) :
    f = responseFrame f.b2 f.b3 f.b4 f.b5 f.b6 f.b7 f.b8 f.b9 f.b10 f.b11 := by
  cases f
  simp_all only [responseFrame, Frame.checksum]

/-- Everything the scanner's decoder answers (R67 to R69). -/
theorem decodeResponse_cases (cfg : Config) (f : Frame) :
    (f.b1 ≠ rspKind ∧ decodeResponse cfg f = .error (.badKind f.b1)) ∨
    (f.b1 = rspKind ∧ f.checksum ≠ f.b12 ∧ decodeResponse cfg f = .error (.badSum f.checksum f.b12)) ∨
    (f.b1 = rspKind ∧ f.checksum = f.b12 ∧ decodeResponse cfg f = .ok (decodeAccepted cfg f)) := by
  by_cases h1 : f.b1 = rspKind <;> by_cases h2 : f.checksum = f.b12 <;> simp [decodeResponse, h1, h2]

theorem decodeResponse_eq_ok {cfg : Config} {f : Frame} {i : Instr} (h : decodeResponse cfg f = .ok i) :
    f.b1 = rspKind ∧ f.checksum = f.b12 ∧ i = decodeAccepted cfg f := by
  obtain ⟨-, e⟩ | ⟨-, -, e⟩ | ⟨h1, h2, e⟩ := decodeResponse_cases cfg f <;> rw [e] at h <;> cases h
  exact ⟨h1, h2, rfl⟩

/-- The encoding of an accepted frame's instruction is the frame itself: no byte is dropped. -/
theorem encode_decodeAccepted (cfg : Config) (f : Frame) :
    encode cfg (decodeAccepted cfg f) = responseFrame f.b2 f.b3 f.b4 f.b5 f.b6 f.b7 f.b8 f.b9 f.b10 f.b11 := by
  unfold decodeAccepted
  cases e : cfg.kindOf f.b2 with
  | none => rfl
  | some k =>
    have hk := Config.kindOf_eq_some e
    obtain ⟨h0, h1, h2, h3⟩ := byte32_be32 f.b8 f.b9 f.b10 f.b11
    cases k <;> simp [decodeFields, encode, hk, h0, h1, h2, h3]

theorem encode_of_decodeResponse {cfg : Config} {f : Frame} {i : Instr} (h0 : f.b0 = startByte)
    (h : decodeResponse cfg f = .ok i) : encode cfg i = f := by
  obtain ⟨h1, h2, rfl⟩ := decodeResponse_eq_ok h
  rw [encode_decodeAccepted]
  exact (eq_responseFrame h0 h1 h2).symm

theorem decodeAccepted_wf (cfg : Config) (f : Frame) : (decodeAccepted cfg f).wf cfg = true := by
  unfold decodeAccepted
  cases e : cfg.kindOf f.b2 with
  | none =>
    have hn : ¬ cfg.isTypeCode f.b2 = true := by
      rw [cfg.isTypeCode_iff]
      rintro ⟨k, hk⟩
      exact (cfg.kindOf_eq_none _).1 e k hk
    simpa [Instr.wf] using hn
  | some k => cases k <;> rfl

/-- The type byte of a kind selects that kind's decoder (R45). -/
theorem decodeAccepted_typeCode {cfg : Config} (h : cfg.wf) {f : Frame} {k : MsgKind} (hf : f.b2 = cfg.typeCode k) :
    decodeAccepted cfg f = decodeFields f k := by
  simp [decodeAccepted, hf, Config.kindOf_typeCode h]

/-- The decoder of a response never answers an ENC row. -/
theorem decodeAccepted_ne_encInstr (cfg : Config) (f : Frame) (k : MsgKind) : decodeAccepted cfg f ≠ k.encInstr := by
  unfold decodeAccepted
  cases cfg.kindOf f.b2 with
  | none => cases k <;> simp [MsgKind.encInstr]
  | some j => cases j <;> cases k <;> simp [MsgKind.encInstr, decodeFields]

/-- A response frame the encoder makes passes the decoder's tests. -/
theorem decodeFrame_responseFrame (cfg : Config) (t b3 b4 b5 b6 b7 b8 b9 b10 b11 : Byte) :
    decodeFrame cfg (responseFrame t b3 b4 b5 b6 b7 b8 b9 b10 b11) =
      .ok (decodeAccepted cfg (responseFrame t b3 b4 b5 b6 b7 b8 b9 b10 b11)) := by
  have h := (decodeResponse_cases cfg (responseFrame t b3 b4 b5 b6 b7 b8 b9 b10 b11)).resolve_left (fun h => h.1 rfl)
  have h := (h.resolve_left (fun h => h.2.1 rfl)).2.2
  simp [decodeFrame, responseFrame, rspKind, reqAddr] at h ⊢
  simp [h, Except.mapError]

end Sys2Proof
end

