-- ==== Sys2Proof/Laws/Memory.lean ====
section
/-! SUPPORT. The buffer: what latching lays down, what reading, searching and taking a window answer, and that every memory
the machine makes is in canonical form. -/

namespace Sys2Proof.Machine

/-! ### Latching and reading -/

@[simp] theorem Memory.read_nil (a : Nat) : Memory.read [] a = none := rfl

theorem Memory.layFrom_keys (a : Nat) (bs : List Byte) :
    (Memory.layFrom a bs).map Prod.fst = List.range' a bs.length := by
  induction bs generalizing a with
  | nil => rfl
  | cons b bs ih => simp [Memory.layFrom, ih, List.range'_succ]

theorem Memory.latch_keys (bs : List Byte) : (Memory.latch bs).map Prod.fst = List.range bs.length := by
  rw [Memory.latch, Memory.layFrom_keys, List.range_eq_range']

/-- A memory whose addresses are 0 to n-1 in order is in canonical form. -/
theorem Memory.wf_of_range {m : Memory} {n : Nat} (h : m.map Prod.fst = List.range n) : m.wf := by
  rw [Memory.wf, h]
  exact List.pairwise_lt_range

/-- Latching, the one operation that writes a memory, keeps the canonical form. -/
theorem Memory.latch_wf (bs : List Byte) : (Memory.latch bs).wf := Memory.wf_of_range (Memory.latch_keys bs)

theorem State.Inv.buf_wf {s : State} (h : s.Inv) : s.buf.wf := Memory.wf_of_range h.buf_range

theorem Memory.read_layFrom (a : Nat) (bs : List Byte) (i : Nat) :
    (Memory.layFrom a bs).read i = if a ≤ i then bs[i - a]? else none := by
  induction bs generalizing a with
  | nil => simp [Memory.layFrom]
  | cons b bs ih =>
    by_cases h : i = a
    · subst h
      simp [Memory.layFrom, Memory.read]
    · have hb : (i == a) = false := by simpa using h
      have : (Memory.layFrom a (b :: bs)).read i = (Memory.layFrom (a + 1) bs).read i := by
        simp [Memory.layFrom, Memory.read, List.lookup, hb]
      rw [this, ih]
      by_cases hi : a + 1 ≤ i
      · obtain ⟨j, rfl⟩ : ∃ j, i = a + 1 + j := ⟨i - (a + 1), by omega⟩
        simp [show a ≤ a + 1 + j by omega, show a + 1 + j - a = j + 1 by omega]
      · simp [hi, show ¬ a ≤ i by omega]

/-- A read of a latched buffer is the byte of the host's sequence at that index, and nothing beyond its end. -/
theorem Memory.read_latch (bs : List Byte) (i : Nat) : (Memory.latch bs).read i = bs[i]? := by
  simp [Memory.latch, Memory.read_layFrom]

theorem Memory.read_isSome (m : Memory) (a : Nat) : (m.read a).isSome ↔ a ∈ m.map Prod.fst := by
  induction m with
  | nil => simp
  | cons c m ih =>
    by_cases h : a = c.1
    · simp [Memory.read, List.lookup, h]
    · have hb : (a == c.1) = false := by simpa using h
      simp only [Memory.read] at ih
      simp [Memory.read, List.lookup, hb, h, ih]

/-- Under the invariant exactly the indices below LEN hold a byte (R26). -/
theorem State.Inv.read_isSome {s : State} (h : s.Inv) (a : Nat) : (s.buf.read a).isSome ↔ a < s.len := by
  rw [Memory.read_isSome, h.buf_range, List.mem_range]

/-! ### Searching -/

theorem findStart_eq_none {m : Memory} {i n : Nat} :
    findStart m i n = none ↔ ∀ j, i ≤ j → j < i + n → m.read j ≠ some startByte := by
  induction n generalizing i with
  | zero => simp only [findStart, true_iff]; omega
  | succ n ih =>
    by_cases h : m.read i = some startByte
    · simp only [findStart, h, if_true, reduceCtorEq, false_iff, not_forall]
      exact ⟨i, le_refl i, by omega, by simp [h]⟩
    · simp only [findStart, h, if_false, ih]
      constructor
      · intro hj j h1 h2
        rcases Nat.eq_or_lt_of_le h1 with rfl | h3
        · exact h
        · exact hj j h3 (by omega)
      · exact fun hj j h1 h2 => hj j (by omega) (by omega)

theorem findStart_eq_some {m : Memory} {i n p : Nat} :
    findStart m i n = some p ↔
      i ≤ p ∧ p < i + n ∧ m.read p = some startByte ∧ ∀ j, i ≤ j → j < p → m.read j ≠ some startByte := by
  induction n generalizing i with
  | zero => simp only [findStart, reduceCtorEq, false_iff]; omega
  | succ n ih =>
    by_cases h : m.read i = some startByte
    · simp only [findStart, h, if_true, Option.some.injEq]
      constructor
      · rintro rfl
        exact ⟨le_refl i, by omega, h, by omega⟩
      · rintro ⟨h1, -, -, h4⟩
        by_contra hne
        exact h4 i (le_refl i) (by omega) h
    · simp only [findStart, h, if_false, ih]
      constructor
      · rintro ⟨h1, h2, h3, h4⟩
        refine ⟨by omega, by omega, h3, fun j hj1 hj2 => ?_⟩
        rcases Nat.eq_or_lt_of_le hj1 with rfl | hlt
        · exact h
        · exact h4 j hlt hj2
      · rintro ⟨h1, h2, h3, h4⟩
        have hne : i ≠ p := by rintro rfl; exact h h3
        exact ⟨by omega, by omega, h3, fun j hj1 hj2 => h4 j (by omega) hj2⟩

/-- The search of a state answers its candidate (R64 step 1). -/
theorem findStart_state_eq_some {s : State} {p : Nat} :
    findStart s.buf s.pos (s.len - s.pos) = some p ↔ IsCandidate s p := by
  rw [findStart_eq_some]
  constructor
  · rintro ⟨h1, h2, h3, h4⟩
    exact ⟨h1, by omega, h3, h4⟩
  · rintro ⟨h1, h2, h3, h4⟩
    exact ⟨h1, by omega, h3, h4⟩

theorem findStart_state_eq_none {s : State} :
    findStart s.buf s.pos (s.len - s.pos) = none ↔ ∀ j, s.pos ≤ j → j < s.len → s.buf.read j ≠ some startByte := by
  rw [findStart_eq_none]
  exact ⟨fun h j h1 h2 => h j h1 (by omega), fun h j h1 h2 => h j h1 (by omega)⟩

/-- A state has at most one candidate. -/
theorem IsCandidate.unique {s : State} {p q : Nat} (hp : IsCandidate s p) (hq : IsCandidate s q) : p = q :=
  Option.some.inj ((findStart_state_eq_some.2 hp).symm.trans (findStart_state_eq_some.2 hq))

/-! ### Windows -/

theorem Memory.readMany_eq_some {m : Memory} {a n : Nat} {bs : List Byte} :
    m.readMany a n = some bs ↔ bs.length = n ∧ ∀ k, k < n → m.read (a + k) = bs[k]? := by
  induction n generalizing a bs with
  | zero =>
    simp only [Memory.readMany, Option.some.injEq, Nat.not_lt_zero, false_implies, implies_true, and_true,
      List.length_eq_zero_iff]
    exact eq_comm
  | succ n ih =>
    constructor
    · intro h
      simp only [Memory.readMany, Option.bind_eq_bind, Option.bind_eq_some_iff] at h
      obtain ⟨b, hb, cs, hcs, h⟩ := h
      obtain rfl : b :: cs = bs := Option.some.inj h
      obtain ⟨hl, hk⟩ := ih.1 hcs
      refine ⟨by simp [hl], fun k hk' => ?_⟩
      cases k with
      | zero => simpa using hb
      | succ k => simpa [Nat.add_assoc, Nat.add_comm, Nat.add_left_comm] using hk k (by omega)
    · rintro ⟨hl, hk⟩
      cases bs with
      | nil => simp at hl
      | cons b cs =>
        have h0 : m.read a = some b := by simpa using hk 0 (by omega)
        have h1 : m.readMany (a + 1) n = some cs := by
          refine ih.2 ⟨by simpa using hl, fun k hk' => ?_⟩
          have := hk (k + 1) (by omega)
          simpa [Nat.add_assoc, Nat.add_comm, Nat.add_left_comm] using this
        simp [Memory.readMany, h0, h1]

/-- The window at `p` is the frame that stands there (R12). -/
theorem window_eq_some {s : State} {p : Nat} {f : Frame} : window s.buf p = some f ↔ HoldsFrame s p f := by
  constructor
  · intro h
    obtain ⟨bs, hbs, hf⟩ := Option.bind_eq_some_iff.1 h
    obtain ⟨hl, hk⟩ := Memory.readMany_eq_some.1 hbs
    obtain ⟨rest, hr⟩ := Frame.ofBytes_eq_some hf
    have hnil : rest = [] := by
      have h13 : (f.bytes ++ rest).length = frameLen := hr ▸ hl
      simpa [frameLen] using h13
    rw [hnil, List.append_nil] at hr
    rwa [hr] at hk
  · intro h
    have hm : s.buf.readMany p frameLen = some f.bytes := Memory.readMany_eq_some.2 ⟨rfl, h⟩
    simp [window, hm]

/-- Under the invariant a candidate with 13 bytes left is a whole window (R71). -/
theorem State.Inv.window_isSome {s : State} (h : s.Inv) {p : Nat} (hp : p + 13 ≤ s.len) : ∃ f, HoldsFrame s p f := by
  have hall : ∀ n a, a + n ≤ s.len → ∃ bs, s.buf.readMany a n = some bs := by
    intro n
    induction n with
    | zero => exact fun a _ => ⟨[], rfl⟩
    | succ n ih =>
      intro a ha
      obtain ⟨b, hb⟩ := Option.isSome_iff_exists.1 ((h.read_isSome a).2 (by omega))
      obtain ⟨bs, hbs⟩ := ih (a + 1) (by omega)
      exact ⟨b :: bs, by simp [Memory.readMany, hb, hbs]⟩
  obtain ⟨bs, hbs⟩ := hall frameLen p hp
  obtain ⟨f, hf⟩ := Frame.ofBytes_isSome (bs := bs) (by rw [(Memory.readMany_eq_some.1 hbs).1]; rfl)
  exact ⟨f, window_eq_some.1 (by simp [window, hbs, hf])⟩

/-- A frame held in the buffer begins with the byte at its position. -/
theorem HoldsFrame.b0 {s : State} {p : Nat} {f : Frame} (h : HoldsFrame s p f) : s.buf.read p = some f.b0 := by
  simpa [Frame.bytes] using h 0 (by omega)

theorem HoldsFrame.unique {s : State} {p : Nat} {f g : Frame} (hf : HoldsFrame s p f) (hg : HoldsFrame s p g) : f = g :=
  Option.some.inj ((window_eq_some.2 hf).symm.trans (window_eq_some.2 hg))

end Sys2Proof.Machine
end

