-- ==== Sys2Proof/Laws/State.lean ====
section
/-! SUPPORT. What each named update of the state does to each field, one lemma a field. -/

namespace Sys2Proof.Machine

/-! ### emit -/

@[simp] theorem State.emit_phase (s : State) (e : Event) : (s.emit e).phase = s.phase := rfl
@[simp] theorem State.emit_buf (s : State) (e : Event) : (s.emit e).buf = s.buf := rfl
@[simp] theorem State.emit_len (s : State) (e : Event) : (s.emit e).len = s.len := rfl
@[simp] theorem State.emit_pos (s : State) (e : Event) : (s.emit e).pos = s.pos := rfl
@[simp] theorem State.emit_last (s : State) (e : Event) : (s.emit e).last = e.last := rfl
@[simp] theorem State.emit_evt (s : State) (e : Event) : (s.emit e).evt = s.evt ++ [e] := rfl
@[simp] theorem State.emit_pub (s : State) (e : Event) : (s.emit e).pub = s.pub := rfl
@[simp] theorem State.emit_tx (s : State) (e : Event) : (s.emit e).tx = s.tx := rfl
@[simp] theorem State.emit_refused (s : State) (e : Event) : (s.emit e).refused = s.refused := rfl
@[simp] theorem State.emit_refusals (s : State) (e : Event) : (s.emit e).refusals = s.refusals := rfl
@[simp] theorem State.emit_cfg (s : State) (e : Event) : (s.emit e).cfg = s.cfg := rfl
@[simp] theorem State.emit_inputs (s : State) (e : Event) : (s.emit e).inputs = s.inputs := rfl

/-! ### publish -/

@[simp] theorem State.publish_phase (s : State) (ps : List Publish) : (s.publish ps).phase = s.phase := rfl
@[simp] theorem State.publish_buf (s : State) (ps : List Publish) : (s.publish ps).buf = s.buf := rfl
@[simp] theorem State.publish_len (s : State) (ps : List Publish) : (s.publish ps).len = s.len := rfl
@[simp] theorem State.publish_pos (s : State) (ps : List Publish) : (s.publish ps).pos = s.pos := rfl
@[simp] theorem State.publish_last (s : State) (ps : List Publish) : (s.publish ps).last = s.last := rfl
@[simp] theorem State.publish_evt (s : State) (ps : List Publish) : (s.publish ps).evt = s.evt := rfl
@[simp] theorem State.publish_pub (s : State) (ps : List Publish) : (s.publish ps).pub = s.pub ++ ps := rfl
@[simp] theorem State.publish_tx (s : State) (ps : List Publish) : (s.publish ps).tx = s.tx := rfl
@[simp] theorem State.publish_refused (s : State) (ps : List Publish) : (s.publish ps).refused = s.refused := rfl
@[simp] theorem State.publish_refusals (s : State) (ps : List Publish) : (s.publish ps).refusals = s.refusals := rfl
@[simp] theorem State.publish_cfg (s : State) (ps : List Publish) : (s.publish ps).cfg = s.cfg := rfl
@[simp] theorem State.publish_inputs (s : State) (ps : List Publish) : (s.publish ps).inputs = s.inputs := rfl

/-! ### txWrite -/

@[simp] theorem State.txWrite_phase (s : State) (bs : List Byte) : (s.txWrite bs).phase = s.phase := rfl
@[simp] theorem State.txWrite_buf (s : State) (bs : List Byte) : (s.txWrite bs).buf = s.buf := rfl
@[simp] theorem State.txWrite_len (s : State) (bs : List Byte) : (s.txWrite bs).len = s.len := rfl
@[simp] theorem State.txWrite_pos (s : State) (bs : List Byte) : (s.txWrite bs).pos = s.pos := rfl
@[simp] theorem State.txWrite_last (s : State) (bs : List Byte) : (s.txWrite bs).last = s.last := rfl
@[simp] theorem State.txWrite_evt (s : State) (bs : List Byte) : (s.txWrite bs).evt = s.evt := rfl
@[simp] theorem State.txWrite_pub (s : State) (bs : List Byte) : (s.txWrite bs).pub = s.pub := rfl
@[simp] theorem State.txWrite_tx (s : State) (bs : List Byte) : (s.txWrite bs).tx = s.tx ++ bs := rfl
@[simp] theorem State.txWrite_refused (s : State) (bs : List Byte) : (s.txWrite bs).refused = s.refused := rfl
@[simp] theorem State.txWrite_refusals (s : State) (bs : List Byte) : (s.txWrite bs).refusals = s.refusals := rfl
@[simp] theorem State.txWrite_cfg (s : State) (bs : List Byte) : (s.txWrite bs).cfg = s.cfg := rfl
@[simp] theorem State.txWrite_inputs (s : State) (bs : List Byte) : (s.txWrite bs).inputs = s.inputs := rfl

/-! ### setPos -/

@[simp] theorem State.setPos_phase (s : State) (p : Nat) : (s.setPos p).phase = s.phase := rfl
@[simp] theorem State.setPos_buf (s : State) (p : Nat) : (s.setPos p).buf = s.buf := rfl
@[simp] theorem State.setPos_len (s : State) (p : Nat) : (s.setPos p).len = s.len := rfl
@[simp] theorem State.setPos_pos (s : State) (p : Nat) : (s.setPos p).pos = p := rfl
@[simp] theorem State.setPos_last (s : State) (p : Nat) : (s.setPos p).last = s.last := rfl
@[simp] theorem State.setPos_evt (s : State) (p : Nat) : (s.setPos p).evt = s.evt := rfl
@[simp] theorem State.setPos_pub (s : State) (p : Nat) : (s.setPos p).pub = s.pub := rfl
@[simp] theorem State.setPos_tx (s : State) (p : Nat) : (s.setPos p).tx = s.tx := rfl
@[simp] theorem State.setPos_refused (s : State) (p : Nat) : (s.setPos p).refused = s.refused := rfl
@[simp] theorem State.setPos_refusals (s : State) (p : Nat) : (s.setPos p).refusals = s.refusals := rfl
@[simp] theorem State.setPos_cfg (s : State) (p : Nat) : (s.setPos p).cfg = s.cfg := rfl
@[simp] theorem State.setPos_inputs (s : State) (p : Nat) : (s.setPos p).inputs = s.inputs := rfl

/-! ### setPhase -/

@[simp] theorem State.setPhase_phase (s : State) (p : Phase) : (s.setPhase p).phase = p := rfl
@[simp] theorem State.setPhase_buf (s : State) (p : Phase) : (s.setPhase p).buf = s.buf := rfl
@[simp] theorem State.setPhase_len (s : State) (p : Phase) : (s.setPhase p).len = s.len := rfl
@[simp] theorem State.setPhase_pos (s : State) (p : Phase) : (s.setPhase p).pos = s.pos := rfl
@[simp] theorem State.setPhase_last (s : State) (p : Phase) : (s.setPhase p).last = s.last := rfl
@[simp] theorem State.setPhase_evt (s : State) (p : Phase) : (s.setPhase p).evt = s.evt := rfl
@[simp] theorem State.setPhase_pub (s : State) (p : Phase) : (s.setPhase p).pub = s.pub := rfl
@[simp] theorem State.setPhase_tx (s : State) (p : Phase) : (s.setPhase p).tx = s.tx := rfl
@[simp] theorem State.setPhase_refused (s : State) (p : Phase) : (s.setPhase p).refused = s.refused := rfl
@[simp] theorem State.setPhase_refusals (s : State) (p : Phase) : (s.setPhase p).refusals = s.refusals := rfl
@[simp] theorem State.setPhase_cfg (s : State) (p : Phase) : (s.setPhase p).cfg = s.cfg := rfl
@[simp] theorem State.setPhase_inputs (s : State) (p : Phase) : (s.setPhase p).inputs = s.inputs := rfl

/-! ### refuse -/

@[simp] theorem State.refuse_phase (s : State) (r : CmdRefusal) : (s.refuse r).phase = s.phase := rfl
@[simp] theorem State.refuse_buf (s : State) (r : CmdRefusal) : (s.refuse r).buf = s.buf := rfl
@[simp] theorem State.refuse_len (s : State) (r : CmdRefusal) : (s.refuse r).len = s.len := rfl
@[simp] theorem State.refuse_pos (s : State) (r : CmdRefusal) : (s.refuse r).pos = s.pos := rfl
@[simp] theorem State.refuse_last (s : State) (r : CmdRefusal) : (s.refuse r).last = s.last := rfl
@[simp] theorem State.refuse_evt (s : State) (r : CmdRefusal) : (s.refuse r).evt = s.evt := rfl
@[simp] theorem State.refuse_pub (s : State) (r : CmdRefusal) : (s.refuse r).pub = s.pub := rfl
@[simp] theorem State.refuse_tx (s : State) (r : CmdRefusal) : (s.refuse r).tx = s.tx := rfl
@[simp] theorem State.refuse_refused (s : State) (r : CmdRefusal) : (s.refuse r).refused = true := rfl
@[simp] theorem State.refuse_refusals (s : State) (r : CmdRefusal) : (s.refuse r).refusals = s.refusals ++ [r] := rfl
@[simp] theorem State.refuse_cfg (s : State) (r : CmdRefusal) : (s.refuse r).cfg = s.cfg := rfl
@[simp] theorem State.refuse_inputs (s : State) (r : CmdRefusal) : (s.refuse r).inputs = s.inputs := rfl

/-! ### reset -/

@[simp] theorem State.resetOf_phase (cfg : Config) : (State.resetOf cfg).phase = .idle := rfl
@[simp] theorem State.resetOf_buf (cfg : Config) : (State.resetOf cfg).buf = [] := rfl
@[simp] theorem State.resetOf_len (cfg : Config) : (State.resetOf cfg).len = 0 := rfl
@[simp] theorem State.resetOf_pos (cfg : Config) : (State.resetOf cfg).pos = 0 := rfl
@[simp] theorem State.resetOf_last (cfg : Config) : (State.resetOf cfg).last = .none := rfl
@[simp] theorem State.resetOf_evt (cfg : Config) : (State.resetOf cfg).evt = [] := rfl
@[simp] theorem State.resetOf_pub (cfg : Config) : (State.resetOf cfg).pub = [] := rfl
@[simp] theorem State.resetOf_tx (cfg : Config) : (State.resetOf cfg).tx = [] := rfl
@[simp] theorem State.resetOf_refused (cfg : Config) : (State.resetOf cfg).refused = false := rfl
@[simp] theorem State.resetOf_refusals (cfg : Config) : (State.resetOf cfg).refusals = [] := rfl
@[simp] theorem State.resetOf_cfg (cfg : Config) : (State.resetOf cfg).cfg = cfg := rfl
@[simp] theorem State.resetOf_inputs (cfg : Config) : (State.resetOf cfg).inputs = [] := rfl

theorem State.reset_eq : State.reset = State.resetOf Config.default := rfl

end Sys2Proof.Machine
end

