-- ==== Sys2Proof/Laws/Ops.lean ====
section
/-! SUPPORT. What each shared outcome and each family of meanings does, said once. -/

namespace Sys2Proof.Machine

/-! ### The encoder -/

theorem transmitRequest_eq (k : MsgKind) (s : State) :
    transmitRequest k s = .next { s with tx := s.tx ++ (requestFrame s.cfg k).bytes } := rfl

/-- Every ENC row transmits the request frame of its kind (R54). -/
theorem exec_encInstr (k : MsgKind) (s : State) : exec k.encInstr s = transmitRequest k s := by
  cases k <;> rfl

/-! ### Accepting a frame -/

/-- The state after an event `e` that leaves the cursor at `q`: what every DEC.STEP that is not refused writes. -/
def State.afterEvent (s : State) (e : Event) (q : Nat) : State :=
  { s with
    phase := if e.isEnd then .done else .scanning, pos := q, last := e.last, evt := s.evt ++ [e],
    pub := s.pub ++ e.publishes s.cfg }

@[simp] theorem State.afterEvent_phase (s : State) (e : Event) (q : Nat) : (s.afterEvent e q).phase = if e.isEnd then .done else .scanning := rfl
@[simp] theorem State.afterEvent_buf (s : State) (e : Event) (q : Nat) : (s.afterEvent e q).buf = s.buf := rfl
@[simp] theorem State.afterEvent_len (s : State) (e : Event) (q : Nat) : (s.afterEvent e q).len = s.len := rfl
@[simp] theorem State.afterEvent_pos (s : State) (e : Event) (q : Nat) : (s.afterEvent e q).pos = q := rfl
@[simp] theorem State.afterEvent_last (s : State) (e : Event) (q : Nat) : (s.afterEvent e q).last = e.last := rfl
@[simp] theorem State.afterEvent_evt (s : State) (e : Event) (q : Nat) : (s.afterEvent e q).evt = s.evt ++ [e] := rfl
@[simp] theorem State.afterEvent_pub (s : State) (e : Event) (q : Nat) : (s.afterEvent e q).pub = s.pub ++ e.publishes s.cfg := rfl
@[simp] theorem State.afterEvent_tx (s : State) (e : Event) (q : Nat) : (s.afterEvent e q).tx = s.tx := rfl
@[simp] theorem State.afterEvent_refused (s : State) (e : Event) (q : Nat) : (s.afterEvent e q).refused = s.refused := rfl
@[simp] theorem State.afterEvent_refusals (s : State) (e : Event) (q : Nat) : (s.afterEvent e q).refusals = s.refusals := rfl
@[simp] theorem State.afterEvent_cfg (s : State) (e : Event) (q : Nat) : (s.afterEvent e q).cfg = s.cfg := rfl
@[simp] theorem State.afterEvent_inputs (s : State) (e : Event) (q : Nat) : (s.afterEvent e q).inputs = s.inputs := rfl

theorem acceptFrame_scanning {s : State} (h : s.phase = .scanning) (f : Frame) (r : Record) :
    acceptFrame f r s = .next (s.afterEvent (.acc s.pos f r) (s.pos + 13)) := by
  unfold acceptFrame
  rw [if_pos h]
  cases s
  cases h
  rfl

theorem acceptFrame_refused {s : State} (h : s.phase ≠ .scanning) (f : Frame) (r : Record) :
    acceptFrame f r s = .next (s.refuse .notScanning) := if_neg h

theorem reject_eq {s : State} (h : s.phase = .scanning) {e : Event} (he : e.isEnd = false)
    (hp : e.publishes s.cfg = []) (p : Nat) : reject e p s = .next (s.afterEvent e (p + 1)) := by
  simp [reject, State.afterEvent, State.emit, State.setPos, he, hp, h]

theorem endPass_eq (s : State) {e : Event} (he : e.isEnd = true) (hp : e.publishes s.cfg = []) (p : Nat) :
    endPass e p s = .next (s.afterEvent e p) := by
  simp [endPass, State.afterEvent, State.emit, State.setPos, State.setPhase, he, hp]

/-- The instruction of an accepted frame accepts it with the record `DECODE(F)` (R76): the one lemma about the
seven DEC meanings as the scanner reaches them. -/
theorem exec_decodeAccepted (f : Frame) (s : State) :
    exec (decodeAccepted s.cfg f) s =
      acceptFrame (encode s.cfg (decodeAccepted s.cfg f)) (decodeRecord s.cfg f) s := by
  have hc : decodeAccepted s.cfg f = match s.cfg.kindOf f.b2 with
      | some k => decodeFields f k
      | none => .decUnrecognised ⟨f.b2, f.b3, f.b4, f.b5, f.b6, f.b7, f.b8, f.b9, f.b10, f.b11⟩ := by
    unfold decodeAccepted
    rfl
  unfold decodeRecord
  rw [hc]
  simp only [Config.kindOf, MsgKind.all, List.find?, eq_comm (a := f.b2)]
  by_cases h1 : s.cfg.typeCode .batteryLevel = f.b2
  · simp only [h1, decide_true, if_true]; rfl
  by_cases h2 : s.cfg.typeCode .minMaxVoltage = f.b2
  · simp only [h1, h2, decide_true, decide_false, if_true, if_false]; rfl
  by_cases h3 : s.cfg.typeCode .minMaxTemperature = f.b2
  · simp only [h1, h2, h3, decide_true, decide_false, if_true, if_false]; rfl
  by_cases h4 : s.cfg.typeCode .mosStatus = f.b2
  · simp only [h1, h2, h3, h4, decide_true, decide_false, if_true, if_false]; rfl
  by_cases h5 : s.cfg.typeCode .packStatus = f.b2
  · simp only [h1, h2, h3, h4, h5, decide_true, decide_false, if_true, if_false]; rfl
  by_cases h6 : s.cfg.typeCode .temperature = f.b2
  · simp only [h1, h2, h3, h4, h5, h6, decide_true, decide_false, if_true, if_false]; rfl
  · simp only [h1, h2, h3, h4, h5, h6, decide_false, if_false]; rfl

/-- A meaning never faults or refuses: exec answers a next state for every instruction in every state. -/
theorem exec_next (i : Instr) (s : State) : ∃ t, exec i s = .next t := by
  have ha : ∀ f r, ∃ t, acceptFrame f r s = .next t := fun f r => by
    by_cases h : s.phase = .scanning
    · exact ⟨_, acceptFrame_scanning h f r⟩
    · exact ⟨_, acceptFrame_refused h f r⟩
  cases i <;> first | exact ha _ _ | exact ⟨_, rfl⟩

/-! ### Loading -/

/-- Everything DEC.LOAD does (R62, R90). -/
theorem loadBuffer_cases (b : List Byte) (s : State) :
    (s.phase = .scanning ∧ loadBuffer b s = .next (s.refuse .busy)) ∨
    (s.phase ≠ .scanning ∧ fitsCap s.cfg b.length = false ∧ loadBuffer b s = .next (s.refuse .tooLong)) ∨
    (s.phase ≠ .scanning ∧ fitsCap s.cfg b.length = true ∧
      loadBuffer b s =
        .next { s with buf := Memory.latch b, len := b.length, pos := 0, last := .none, phase := .scanning }) := by
  by_cases h : s.phase = .scanning <;> cases hf : fitsCap s.cfg b.length <;> simp [loadBuffer, h, hf]

theorem fitsCap_iff (cfg : Config) (n : Nat) : fitsCap cfg n = true ↔ ∀ c, cfg.bufCap = some c → n ≤ c := by
  cases h : cfg.bufCap <;> simp [fitsCap, h]

theorem not_fitsCap_iff (cfg : Config) (n : Nat) : fitsCap cfg n = false ↔ ∃ c, cfg.bufCap = some c ∧ c < n := by
  cases h : cfg.bufCap <;> simp [fitsCap, h]

/-- A valid frame passes the scanner's tests (R43). -/
theorem decodeResponse_of_valid {f : Frame} (h : validFrame f) (cfg : Config) :
    decodeResponse cfg f = .ok (decodeAccepted cfg f) := by
  obtain ⟨h1, -⟩ | ⟨-, h2, -⟩ | ⟨-, -, e⟩ := decodeResponse_cases cfg f
  · exact absurd h.2.1 h1
  · exact absurd h.2.2.symm h2
  · exact e

end Sys2Proof.Machine
end

