-- ==== Sys2Proof/Laws/PerInstr.lean ====
section
/-! SUPPORT. Facts about every instruction as syntax, one lemma a constructor. -/

namespace Sys2Proof.Laws

/-- The encoding of every instruction is a frame the formats allow: the start byte, one of the two kind bytes, and a
checksum that is the sum of the first twelve bytes (R41 to R43). -/
def EncodedFrame.Statement (i : Instr) : Prop :=
  ∀ cfg : Config,
    (encode cfg i).b0 = startByte ∧ ((encode cfg i).b1 = reqAddr ∨ (encode cfg i).b1 = rspKind) ∧
      (encode cfg i).checksum = (encode cfg i).b12

theorem EncodedFrame.encBatteryLevel : EncodedFrame.Statement .encBatteryLevel := fun cfg =>
  ⟨rfl, .inl rfl, requestFrame_checksum cfg .batteryLevel⟩

theorem EncodedFrame.encMinMaxVoltage : EncodedFrame.Statement .encMinMaxVoltage := fun cfg =>
  ⟨rfl, .inl rfl, requestFrame_checksum cfg .minMaxVoltage⟩

theorem EncodedFrame.encMinMaxTemperature : EncodedFrame.Statement .encMinMaxTemperature := fun cfg =>
  ⟨rfl, .inl rfl, requestFrame_checksum cfg .minMaxTemperature⟩

theorem EncodedFrame.encMosStatus : EncodedFrame.Statement .encMosStatus := fun cfg =>
  ⟨rfl, .inl rfl, requestFrame_checksum cfg .mosStatus⟩

theorem EncodedFrame.encPackStatus : EncodedFrame.Statement .encPackStatus := fun cfg =>
  ⟨rfl, .inl rfl, requestFrame_checksum cfg .packStatus⟩

theorem EncodedFrame.encTemperature : EncodedFrame.Statement .encTemperature := fun cfg =>
  ⟨rfl, .inl rfl, requestFrame_checksum cfg .temperature⟩

theorem EncodedFrame.decBatteryLevel (x : BatteryLevelOps) : EncodedFrame.Statement (.decBatteryLevel x) :=
  fun _ => ⟨rfl, .inr rfl, rfl⟩

theorem EncodedFrame.decMinMaxVoltage (x : MinMaxVoltageOps) : EncodedFrame.Statement (.decMinMaxVoltage x) :=
  fun _ => ⟨rfl, .inr rfl, rfl⟩

theorem EncodedFrame.decMinMaxTemperature (x : MinMaxTemperatureOps) : EncodedFrame.Statement (.decMinMaxTemperature x) :=
  fun _ => ⟨rfl, .inr rfl, rfl⟩

theorem EncodedFrame.decMosStatus (x : MosStatusOps) : EncodedFrame.Statement (.decMosStatus x) :=
  fun _ => ⟨rfl, .inr rfl, rfl⟩

theorem EncodedFrame.decPackStatus (x : PackStatusOps) : EncodedFrame.Statement (.decPackStatus x) :=
  fun _ => ⟨rfl, .inr rfl, rfl⟩

theorem EncodedFrame.decTemperature (x : TemperatureOps) : EncodedFrame.Statement (.decTemperature x) :=
  fun _ => ⟨rfl, .inr rfl, rfl⟩

theorem EncodedFrame.decUnrecognised (x : UnrecognisedOps) : EncodedFrame.Statement (.decUnrecognised x) :=
  fun _ => ⟨rfl, .inr rfl, rfl⟩

end Sys2Proof.Laws
end

