-- ==== Sys2Proof/Laws/Scanner.lean ====
section
/-! SUPPORT. What one DEC.STEP does: a lemma for each branch of R64, and the inversion that says all of them at once. -/

namespace Sys2Proof.Machine

/-- What holds of the state before a DEC.STEP that emits `e` and leaves the cursor at `q` (R64 to R69). -/
def EventAt (s : State) (q : Nat) : Event → Prop
  | .acc p f r => IsCandidate s p ∧ p + 13 ≤ s.len ∧ HoldsFrame s p f ∧ validFrame f ∧ r = decodeRecord s.cfg f ∧ q = p + 13
  | .rejKind p k =>
    IsCandidate s p ∧ p + 13 ≤ s.len ∧ (∃ f, HoldsFrame s p f ∧ f.b1 = k) ∧ k ≠ rspKind ∧ q = p + 1
  | .rejSum p computed stored =>
    IsCandidate s p ∧ p + 13 ≤ s.len ∧
      (∃ f, HoldsFrame s p f ∧ f.b1 = rspKind ∧ f.checksum = computed ∧ f.b12 = stored) ∧ computed ≠ stored ∧ q = p + 1
  | .endExhausted => (∀ j, s.pos ≤ j → j < s.len → s.buf.read j ≠ some startByte) ∧ q = s.len
  | .endTruncated p => IsCandidate s p ∧ s.len < p + 13 ∧ q = p

theorem EventAt.valid {s : State} {q : Nat} {e : Event} (h : EventAt s q e) : e.valid s.cfg := by
  cases e with
  | acc p f r => exact ⟨h.2.2.2.1, h.2.2.2.2.1⟩
  | rejKind p k => exact h.2.2.2.1
  | rejSum p c st => exact h.2.2.2.1
  | endExhausted => trivial
  | endTruncated p => trivial

/-- A step that ends no pass moves the cursor strictly forward (R19). -/
theorem EventAt.lt {s : State} {q : Nat} {e : Event} (h : EventAt s q e) (he : e.isEnd = false) : s.pos < q := by
  cases e with
  | acc p f r => obtain ⟨⟨h1, -⟩, -, -, -, -, rfl⟩ := h; omega
  | rejKind p k => obtain ⟨⟨h1, -⟩, -, -, -, rfl⟩ := h; omega
  | rejSum p c st => obtain ⟨⟨h1, -⟩, -, -, -, rfl⟩ := h; omega
  | endExhausted => cases he
  | endTruncated p => cases he

/-- The cursor never passes LEN (R71). -/
theorem EventAt.le_len {s : State} {q : Nat} {e : Event} (h : EventAt s q e) : q ≤ s.len := by
  cases e with
  | acc p f r => obtain ⟨-, h2, -, -, -, rfl⟩ := h; exact h2
  | rejKind p k => obtain ⟨-, h2, -, -, rfl⟩ := h; omega
  | rejSum p c st => obtain ⟨-, h2, -, -, rfl⟩ := h; omega
  | endExhausted => exact h.2 ▸ le_refl _
  | endTruncated p => obtain ⟨⟨-, h2, -⟩, -, rfl⟩ := h; omega

/-- Where the event of a step stands: at or after the cursor before it, and before the one after it. -/
theorem EventAt.position {s : State} {q p : Nat} {e : Event} (h : EventAt s q e) (hp : e.position = some p) :
    s.pos ≤ p ∧ (e.isEnd = false → p < q) ∧ (e.last = .acc → p + 13 ≤ q) := by
  cases e with
  | acc p' f r => cases hp; obtain ⟨⟨h1, -⟩, -, -, -, -, rfl⟩ := h; exact ⟨h1, fun _ => by omega, fun _ => by omega⟩
  | rejKind p' k => cases hp; obtain ⟨⟨h1, -⟩, -, -, -, rfl⟩ := h; exact ⟨h1, fun _ => by omega, nofun⟩
  | rejSum p' c st => cases hp; obtain ⟨⟨h1, -⟩, -, -, -, rfl⟩ := h; exact ⟨h1, fun _ => by omega, nofun⟩
  | endExhausted => cases hp
  | endTruncated p' => cases hp; obtain ⟨⟨h1, -⟩, -, rfl⟩ := h; exact ⟨h1, nofun, nofun⟩

/-- What a DEC.STEP finds depends on the instance, the buffer and the cursor alone. -/
theorem EventAt.congr {s s' : State} (hc : s.cfg = s'.cfg) (hb : s.buf = s'.buf) (hl : s.len = s'.len) (hp : s.pos = s'.pos)
    {e : Event} {q : Nat} (h : EventAt s q e) : EventAt s' q e := by
  cases e <;> simp only [EventAt, IsCandidate, HoldsFrame, ← hc, ← hb, ← hl, ← hp] at h ⊢ <;> exact h

/-! ### The branches -/

theorem decStep_notScanning {s : State} (h : s.phase ≠ .scanning) : decStep s = .next (s.refuse .notScanning) := if_neg h

theorem decStep_exhausted {s : State} (h : s.phase = .scanning)
    (hn : ∀ j, s.pos ≤ j → j < s.len → s.buf.read j ≠ some startByte) :
    decStep s = .next (s.afterEvent .endExhausted s.len) := by
  have hs : scan s = .exhausted := by simp [scan, findStart_state_eq_none.2 hn]
  have he : decStep s = endPass .endExhausted s.len s := by simp [decStep, h, hs]
  rw [he, endPass_eq s rfl rfl]

theorem decStep_truncated {s : State} (h : s.phase = .scanning) {p : Nat} (hc : IsCandidate s p) (ht : s.len < p + 13) :
    decStep s = .next (s.afterEvent (.endTruncated p) p) := by
  have ht' : s.len - p < frameLen := by simp only [frameLen]; omega
  have hs : scan s = .truncated p := by simp [scan, findStart_state_eq_some.2 hc, ht']
  have he : decStep s = endPass (.endTruncated p) p s := by simp [decStep, h, hs]
  rw [he, endPass_eq s rfl rfl]

/-- With a whole candidate in the buffer the decoder decides. -/
theorem scan_holdsFrame {s : State} {p : Nat} {f : Frame} (hc : IsCandidate s p) (hl : p + 13 ≤ s.len)
    (hf : HoldsFrame s p f) :
    scan s = match decodeResponse s.cfg f with
      | .error r => .rejected p r
      | .ok i => .accepted p i := by
  have ht : ¬ s.len - p < frameLen := by simp only [frameLen]; omega
  cases hd : decodeResponse s.cfg f <;> simp [scan, findStart_state_eq_some.2 hc, ht, window_eq_some.2 hf, hd]

theorem decStep_badKind {s : State} (h : s.phase = .scanning) {p : Nat} {f : Frame} (hc : IsCandidate s p)
    (hl : p + 13 ≤ s.len) (hf : HoldsFrame s p f) (hk : f.b1 ≠ rspKind) :
    decStep s = .next (s.afterEvent (.rejKind p f.b1) (p + 1)) := by
  have hs : scan s = .rejected p (.badKind f.b1) := by simp [scan_holdsFrame hc hl hf, decodeResponse, hk]
  have he : decStep s = reject (.rejKind p f.b1) p s := by simp [decStep, h, hs, rejectEvent]
  rw [he, reject_eq h rfl rfl]

theorem decStep_badSum {s : State} (h : s.phase = .scanning) {p : Nat} {f : Frame} (hc : IsCandidate s p)
    (hl : p + 13 ≤ s.len) (hf : HoldsFrame s p f) (hk : f.b1 = rspKind) (hx : f.checksum ≠ f.b12) :
    decStep s = .next (s.afterEvent (.rejSum p f.checksum f.b12) (p + 1)) := by
  have hs : scan s = .rejected p (.badSum f.checksum f.b12) := by
    simp [scan_holdsFrame hc hl hf, decodeResponse, hk, hx]
  have he : decStep s = reject (.rejSum p f.checksum f.b12) p s := by simp [decStep, h, hs, rejectEvent]
  rw [he, reject_eq h rfl rfl]

/-- A candidate's frame begins with the start byte. -/
theorem IsCandidate.b0 {s : State} {p : Nat} {f : Frame} (hc : IsCandidate s p) (hf : HoldsFrame s p f) : f.b0 = startByte :=
  Option.some.inj (hf.b0.symm.trans hc.2.2.1)

/-- An accepted candidate runs its instruction at its position, and that writes the ACC event of the very 13 bytes
and their record (R69). -/
theorem decStep_accept {s : State} (h : s.phase = .scanning) {p : Nat} {f : Frame} (hc : IsCandidate s p)
    (hl : p + 13 ≤ s.len) (hf : HoldsFrame s p f) (hk : f.b1 = rspKind) (hx : f.checksum = f.b12) :
    decStep s = exec (decodeAccepted s.cfg f) (s.setPos p) ∧
      decStep s = .next (s.afterEvent (.acc p f (decodeRecord s.cfg f)) (p + 13)) := by
  have hs : scan s = .accepted p (decodeAccepted s.cfg f) := by
    simp [scan_holdsFrame hc hl hf, decodeResponse, hk, hx]
  have he : decStep s = exec (decodeAccepted s.cfg f) (s.setPos p) := by simp [decStep, h, hs]
  have hr := exec_decodeAccepted f (s.setPos p)
  rw [acceptFrame_scanning (s := s.setPos p) h, State.setPos_cfg, encode_decodeAccepted,
    ← eq_responseFrame (hc.b0 hf) hk hx] at hr
  exact ⟨he, he.trans hr⟩

/-! ### All branches at once -/

/-- Everything a DEC.STEP that answers a next state has done: it was refused, or it emitted one event. -/
theorem decStep_eq_next {s t : State} (h : decStep s = .next t) :
    (s.phase ≠ .scanning ∧ t = s.refuse .notScanning) ∨
    (s.phase = .scanning ∧ ∃ e q, EventAt s q e ∧ t = s.afterEvent e q) := by
  by_cases hp : s.phase = .scanning
  · refine .inr ⟨hp, ?_⟩
    cases hc : findStart s.buf s.pos (s.len - s.pos) with
    | none =>
      have hn := findStart_state_eq_none.1 hc
      rw [decStep_exhausted hp hn] at h
      cases h
      exact ⟨.endExhausted, s.len, ⟨hn, rfl⟩, rfl⟩
    | some p =>
      have hcand := findStart_state_eq_some.1 hc
      by_cases ht : s.len < p + 13
      · rw [decStep_truncated hp hcand ht] at h
        cases h
        exact ⟨.endTruncated p, p, ⟨hcand, ht, rfl⟩, rfl⟩
      · have hl : p + 13 ≤ s.len := by omega
        cases hw : window s.buf p with
        | none =>
          have ht' : ¬ s.len - p < frameLen := by simp only [frameLen]; omega
          have hs : scan s = .undefinedRead p := by simp [scan, hc, ht', hw]
          simp [decStep, hp, hs] at h
        | some f =>
          have hf := window_eq_some.1 hw
          obtain ⟨hk, -⟩ | ⟨hk, hx, -⟩ | ⟨hk, hx, -⟩ := decodeResponse_cases s.cfg f
          · rw [decStep_badKind hp hcand hl hf hk] at h
            cases h
            exact ⟨.rejKind p f.b1, p + 1, ⟨hcand, hl, ⟨f, hf, rfl⟩, hk, rfl⟩, rfl⟩
          · rw [decStep_badSum hp hcand hl hf hk hx] at h
            cases h
            exact ⟨.rejSum p f.checksum f.b12, p + 1, ⟨hcand, hl, ⟨f, hf, hk, rfl, rfl⟩, hx, rfl⟩, rfl⟩
          · rw [(decStep_accept hp hcand hl hf hk hx).2] at h
            cases h
            exact ⟨.acc p f (decodeRecord s.cfg f), p + 13, ⟨hcand, hl, hf, ⟨hcand.b0 hf, hk, hx.symm⟩, rfl, rfl⟩, rfl⟩
  · rw [decStep_notScanning hp] at h
    cases h
    exact .inl ⟨hp, rfl⟩

/-- The other way round: a DEC.STEP that finds an event emits it. -/
theorem EventAt.decStep_eq {s : State} (h : s.phase = .scanning) {e : Event} {q : Nat} (he : EventAt s q e) :
    decStep s = .next (s.afterEvent e q) := by
  cases e with
  | acc p f r => obtain ⟨hc, hl, hf, hv, rfl, rfl⟩ := he; exact (decStep_accept h hc hl hf hv.2.1 hv.2.2.symm).2
  | rejKind p k => obtain ⟨hc, hl, ⟨f, hf, rfl⟩, hk, rfl⟩ := he; exact decStep_badKind h hc hl hf hk
  | rejSum p x y => obtain ⟨hc, hl, ⟨f, hf, hk, rfl, rfl⟩, hx, rfl⟩ := he; exact decStep_badSum h hc hl hf hk hx
  | endExhausted => obtain ⟨hn, rfl⟩ := he; exact decStep_exhausted h hn
  | endTruncated p => obtain ⟨hc, ht, rfl⟩ := he; exact decStep_truncated h hc ht

/-- The inputs still to come are no part of the invariant. -/
theorem State.Inv.congr_inputs {s : State} (h : s.Inv) (inputs : List HostInput) : ({ s with inputs := inputs } : State).Inv :=
  ⟨h.buf_range, h.len_fits, h.pos_le, h.idle, h.scanning, h.done, h.refused, h.events, h.published, h.transmitted⟩

/-- Emitting the event a step finds keeps the invariant. -/
theorem State.Inv.afterEvent {s : State} (h : s.Inv) {e : Event} {q : Nat} (he : EventAt s q e) : (s.afterEvent e q).Inv where
  buf_range := h.buf_range
  len_fits := h.len_fits
  pos_le := he.le_len
  idle := fun hp => by cases e <;> cases hp
  scanning := fun hp => by cases e <;> simp [Event.isEnd, Event.last] at hp ⊢
  done := fun hp => by cases e <;> simp [Event.isEnd, Event.last] at hp ⊢
  refused := h.refused
  events := fun x hx => by
    rw [State.afterEvent_evt, List.mem_append, List.mem_singleton] at hx
    rcases hx with hx | rfl
    · exact h.events x hx
    · exact he.valid
  published := by simp [h.published]
  transmitted := h.transmitted

/-- Under the invariant a DEC.STEP always answers a next state: no read is out of the buffer (R71). -/
theorem decStep_next {s : State} (hi : s.Inv) : ∃ t, decStep s = .next t := by
  by_cases hp : s.phase = .scanning
  · cases hc : findStart s.buf s.pos (s.len - s.pos) with
    | none => exact ⟨_, decStep_exhausted hp (findStart_state_eq_none.1 hc)⟩
    | some p =>
      have hcand := findStart_state_eq_some.1 hc
      by_cases ht : s.len < p + 13
      · exact ⟨_, decStep_truncated hp hcand ht⟩
      · have hl : p + 13 ≤ s.len := by omega
        obtain ⟨f, hf⟩ := hi.window_isSome hl
        obtain ⟨hk, -⟩ | ⟨hk, hx, -⟩ | ⟨hk, hx, -⟩ := decodeResponse_cases s.cfg f
        · exact ⟨_, decStep_badKind hp hcand hl hf hk⟩
        · exact ⟨_, decStep_badSum hp hcand hl hf hk hx⟩
        · exact ⟨_, (decStep_accept hp hcand hl hf hk hx).2⟩
  · exact ⟨_, decStep_notScanning hp⟩

end Sys2Proof.Machine
end

