-- ==== Sys2Proof/Laws/Step.lean ====
section
/-! SUPPORT. What one step of the machine does: a lemma for each input of the host, and the inversion over all of them. -/

namespace Sys2Proof.Machine

/-- `s` with the inputs that are left to `rest`: what a step hands the command it has taken. -/
def State.withInputs (s : State) (rest : List HostInput) : State := { s with inputs := rest }

@[simp] theorem State.withInputs_phase (s : State) (rest : List HostInput) : (s.withInputs rest).phase = s.phase := rfl
@[simp] theorem State.withInputs_buf (s : State) (rest : List HostInput) : (s.withInputs rest).buf = s.buf := rfl
@[simp] theorem State.withInputs_len (s : State) (rest : List HostInput) : (s.withInputs rest).len = s.len := rfl
@[simp] theorem State.withInputs_pos (s : State) (rest : List HostInput) : (s.withInputs rest).pos = s.pos := rfl
@[simp] theorem State.withInputs_last (s : State) (rest : List HostInput) : (s.withInputs rest).last = s.last := rfl
@[simp] theorem State.withInputs_evt (s : State) (rest : List HostInput) : (s.withInputs rest).evt = s.evt := rfl
@[simp] theorem State.withInputs_pub (s : State) (rest : List HostInput) : (s.withInputs rest).pub = s.pub := rfl
@[simp] theorem State.withInputs_tx (s : State) (rest : List HostInput) : (s.withInputs rest).tx = s.tx := rfl
@[simp] theorem State.withInputs_refused (s : State) (rest : List HostInput) : (s.withInputs rest).refused = s.refused := rfl
@[simp] theorem State.withInputs_refusals (s : State) (rest : List HostInput) : (s.withInputs rest).refusals = s.refusals := rfl
@[simp] theorem State.withInputs_cfg (s : State) (rest : List HostInput) : (s.withInputs rest).cfg = s.cfg := rfl
@[simp] theorem State.withInputs_inputs (s : State) (rest : List HostInput) : (s.withInputs rest).inputs = rest := rfl

/-! ### One input -/

theorem step_idle {s : State} (h : s.inputs = []) : step s = .next s := by simp [step, runNext, h]

theorem step_input {s : State} {c : HostInput} {rest : List HostInput} (h : s.inputs = c :: rest) :
    step s = runInput c (s.withInputs rest) := by simp [step, runNext, h, State.withInputs]

theorem step_enc {s : State} {k : MsgKind} {rest : List HostInput} (h : s.inputs = .enc (.kind k) :: rest) :
    step s = exec k.encInstr (s.withInputs rest) := step_input h

theorem step_encRaw {s : State} {b : Byte} {rest : List HostInput} (h : s.inputs = .enc (.raw b) :: rest) :
    step s = .next ((s.withInputs rest).refuse .badKind) := step_input h

theorem step_decLoad {s : State} {b : List Byte} {rest : List HostInput} (h : s.inputs = .decLoad b :: rest) :
    step s = loadBuffer b (s.withInputs rest) := step_input h

theorem step_decStep {s : State} {rest : List HostInput} (h : s.inputs = .decStep :: rest) :
    step s = decStep (s.withInputs rest) := step_input h

theorem step_reset {s : State} {rest : List HostInput} (h : s.inputs = .reset :: rest) :
    step s = .next ((State.resetOf s.cfg).withInputs rest) := step_input h

/-- A turn of DEC.RUN is a DEC.STEP, with the command still to come (R52). -/
theorem step_decRun_scanning {s : State} {rest : List HostInput} (h : s.inputs = .decRun :: rest)
    (hp : s.phase = .scanning) : step s = decStep s := by
  have hr : decRun (s.withInputs rest) = decStep { s with inputs := .decRun :: rest } := if_pos hp
  rw [step_input h, runInput, hr, ← h]

/-- DEC.RUN outside SCANNING is a loop of no turns (R52). -/
theorem step_decRun_over {s : State} {rest : List HostInput} (h : s.inputs = .decRun :: rest)
    (hp : s.phase ≠ .scanning) : step s = .next (s.withInputs rest) := by
  rw [step_input h]
  simp [runInput, decRun, State.withInputs, hp]

/-! ### All inputs at once -/

theorem EventAt.withInputs {s : State} {rest : List HostInput} {q : Nat} {e : Event} :
    EventAt (s.withInputs rest) q e ↔ EventAt s q e := by cases e <;> exact Iff.rfl

/-- Everything a step that answers a next state has done, whatever the state. -/
inductive Happened (s : State) : State → Prop
  /-- no input: the block stays as it is -/
  | idle (h : s.inputs = []) : Happened s s
  /-- ENC of a kind -/
  | encoded (k : MsgKind) (rest : List HostInput) (h : s.inputs = .enc (.kind k) :: rest) :
    Happened s { s.withInputs rest with tx := s.tx ++ (requestFrame s.cfg k).bytes }
  /-- any command R89 refuses -/
  | refused (c : HostInput) (rest : List HostInput) (r : CmdRefusal) (h : s.inputs = c :: rest) (hr : Refuses s c r) :
    Happened s ((s.withInputs rest).refuse r)
  /-- DEC.LOAD -/
  | loaded (b : List Byte) (rest : List HostInput) (h : s.inputs = .decLoad b :: rest) (hp : s.phase ≠ .scanning)
    (hf : fitsCap s.cfg b.length = true) :
    Happened s
      { s.withInputs rest with buf := Memory.latch b, len := b.length, pos := 0, last := .none, phase := .scanning }
  /-- DEC.STEP, or a turn of DEC.RUN -/
  | scanned (c : HostInput) (rest left : List HostInput) (h : s.inputs = c :: rest)
    (hc : c = .decStep ∧ left = rest ∨ c = .decRun ∧ left = s.inputs) (hp : s.phase = .scanning) (e : Event) (q : Nat)
    (he : EventAt s q e) : Happened s ((s.withInputs left).afterEvent e q)
  /-- the end of a DEC.RUN -/
  | ran (rest : List HostInput) (h : s.inputs = .decRun :: rest) (hp : s.phase ≠ .scanning) :
    Happened s (s.withInputs rest)
  /-- reset -/
  | reset (rest : List HostInput) (h : s.inputs = .reset :: rest) : Happened s ((State.resetOf s.cfg).withInputs rest)

theorem step_eq_next {s t : State} (h : step s = .next t) : Happened s t := by
  cases hi : s.inputs with
  | nil =>
    rw [step_idle hi] at h
    cases h
    exact .idle hi
  | cons c rest =>
    cases c with
    | enc op =>
      cases op with
      | kind k =>
        rw [step_enc hi, exec_encInstr] at h
        cases h
        exact .encoded k rest hi
      | raw b =>
        rw [step_encRaw hi] at h
        cases h
        exact .refused _ rest _ hi (.badKind b)
    | decLoad b =>
      rw [step_decLoad hi] at h
      obtain ⟨hp, e⟩ | ⟨hp, hf, e⟩ | ⟨hp, hf, e⟩ := loadBuffer_cases b (s.withInputs rest) <;> rw [e] at h <;> cases h
      · exact .refused _ rest _ hi (.busy b hp)
      · obtain ⟨n, hc, hn⟩ := (not_fitsCap_iff _ _).1 hf
        exact .refused _ rest _ hi (.tooLong b n hp hc hn)
      · exact .loaded b rest hi hp hf
    | decStep =>
      rw [step_decStep hi] at h
      obtain ⟨hp, rfl⟩ | ⟨hp, e, q, he, rfl⟩ := decStep_eq_next h
      · exact .refused _ rest _ hi (.notScanning hp)
      · exact .scanned _ rest rest hi (.inl ⟨rfl, rfl⟩) hp e q (EventAt.withInputs.1 he)
    | decRun =>
      by_cases hp : s.phase = .scanning
      · rw [step_decRun_scanning hi hp] at h
        obtain ⟨hn, -⟩ | ⟨-, e, q, he, rfl⟩ := decStep_eq_next h
        · exact absurd hp hn
        · exact .scanned _ rest s.inputs hi (.inr ⟨rfl, rfl⟩) hp e q he
      · rw [step_decRun_over hi hp] at h
        cases h
        exact .ran rest hi hp
    | reset =>
      rw [step_reset hi] at h
      cases h
      exact .reset rest hi

/-! ### Many steps -/

theorem run_zero (s : State) : core.run 0 s = .next s := rfl

/-- A run goes on from the state its first step answers. -/
theorem run_succ {s t : State} (n : Nat) (h : step s = .next t) : core.run (n + 1) s = core.run n t := by
  have hc : core.step s = .next t := h
  simp only [Host.Core.run, hc]

/-- A run that answers a state has taken its first step. -/
theorem run_succ_eq_next {s t : State} {n : Nat} (h : core.run (n + 1) s = .next t) :
    ∃ u, step s = .next u ∧ core.run n u = .next t := by
  have hc : ∀ o, core.step s = o → step s = o := fun _ e => e
  cases e : core.step s with
  | next u => exact ⟨u, hc _ e, by simpa only [Host.Core.run, e] using h⟩
  | fault r => simp only [Host.Core.run, e, reduceCtorEq] at h
  | refused r => simp only [Host.Core.run, e, reduceCtorEq] at h

/-- With no input left a run stands still. -/
theorem run_idle (n : Nat) {s : State} (h : s.inputs = []) : core.run n s = .next s := by
  induction n with
  | zero => rfl
  | succ n ih => rw [run_succ n (step_idle h), ih]

end Sys2Proof.Machine
end

