-- ==== Sys2Proof/Tests/Slice0.lean ====
section
/-! SUPPORT. The model's own tests. Every expected value is spec/95_test_vectors.md's (the vector is named) or is written out
from the format of spec/30_encoding.md; after them, a witness for the hypotheses of every statement that has any. -/

namespace Sys2Proof.Tests

open Sys2Proof.Machine

/-- The state a step answers, if it answers one. -/
def after (o : Result) : Option State :=
  match o with
  | .next t => some t
  | .fault _ => none
  | .refused _ => none

/-- A default-instance block with `bs` latched, a pass begun, and one input waiting. -/
def scanning (bs : List Byte) (c : HostInput) : State :=
  { State.reset with phase := .scanning, buf := Memory.latch bs, len := bs.length, inputs := [c] }

/-- A default-instance block after reset with one input waiting. -/
def waiting (c : HostInput) : State := { State.reset with inputs := [c] }

/-- What the frame `bs` publishes when a DEC.STEP meets it. -/
def published (bs : List Byte) : Option (List Publish) := (after (step (scanning bs .decStep))).map State.pub

/-- The event a DEC.STEP emits on the buffer `bs`, and the cursor it leaves. -/
def scanned (bs : List Byte) : Option (List Event × Nat) :=
  (after (step (scanning bs .decStep))).map (fun t => (t.evt, t.pos))

/-- BL of 95_test_vectors.md. -/
def bl : Frame := ⟨0xA5, 0x01, 0x90, 0x08, 0x01, 0xF4, 0x00, 0x00, 0x77, 0x24, 0x03, 0xE8, 0xB9⟩
/-- MMV of 95_test_vectors.md. -/
def mmv : Frame := ⟨0xA5, 0x01, 0x91, 0x08, 0x0D, 0x05, 0x03, 0x0C, 0xE4, 0x0A, 0x00, 0x00, 0x4E⟩
/-- MMT of 95_test_vectors.md. -/
def mmt : Frame := ⟨0xA5, 0x01, 0x92, 0x08, 0x41, 0x01, 0x3C, 0x02, 0x00, 0x00, 0x00, 0x00, 0xC0⟩
/-- MOS of 95_test_vectors.md. -/
def mos : Frame := ⟨0xA5, 0x01, 0x93, 0x08, 0x01, 0x01, 0x00, 0x00, 0x00, 0x01, 0x86, 0xA0, 0x6A⟩
/-- PS of 95_test_vectors.md. -/
def ps : Frame := ⟨0xA5, 0x01, 0x94, 0x08, 0x10, 0x00, 0x00, 0x00, 0x00, 0x00, 0x00, 0x00, 0x52⟩
/-- T of 95_test_vectors.md. -/
def tt : Frame := ⟨0xA5, 0x01, 0x96, 0x08, 0x01, 0x41, 0x3F, 0x00, 0x00, 0x00, 0x00, 0x00, 0xC5⟩
/-- The frame of V22. -/
def unk : Frame := ⟨0xA5, 0x01, 0x95, 0x08, 0x01, 0x0D, 0x05, 0x0D, 0x06, 0x0D, 0x07, 0x00, 0x7D⟩

/-! ### Well-formedness: each check refuses an ill-formed term -/

theorem test_config_wf_refuses_equal_codes : ¬ { Config.default with temperatureCode := 0x90 }.wf := by decide

theorem test_instr_wf_refuses_a_recognised_type :
    (Instr.decUnrecognised ⟨0x92, 0, 0, 0, 0, 0, 0, 0, 0, 0⟩).wf Config.default = false := by decide

theorem test_instr_wf_takes_an_unrecognised_type :
    (Instr.decUnrecognised ⟨0x95, 0, 0, 0, 0, 0, 0, 0, 0, 0⟩).wf Config.default = true := by decide

/-! ### Decoding: a word of every row, from R41, R43 and R46 -/

/-- What the default instance decodes. -/
def dec (bs : List Byte) : Except DecodeError Instr := decode Config.default bs

/-- The instruction, where there is one. -/
def decInstr (bs : List Byte) : Option Instr := (dec bs).toOption

theorem test_decode_enc_battery_level :
    decInstr [0xA5, 0x80, 0x90, 0x08, 0, 0, 0, 0, 0, 0, 0, 0, 0xBD] = some .encBatteryLevel := by decide

theorem test_decode_enc_min_max_voltage :
    decInstr [0xA5, 0x80, 0x91, 0x08, 0, 0, 0, 0, 0, 0, 0, 0, 0xBE] = some .encMinMaxVoltage := by decide

theorem test_decode_enc_min_max_temperature :
    decInstr [0xA5, 0x80, 0x92, 0x08, 0, 0, 0, 0, 0, 0, 0, 0, 0xBF] = some .encMinMaxTemperature := by decide

theorem test_decode_enc_mos_status :
    decInstr [0xA5, 0x80, 0x93, 0x08, 0, 0, 0, 0, 0, 0, 0, 0, 0xC0] = some .encMosStatus := by decide

theorem test_decode_enc_pack_status :
    decInstr [0xA5, 0x80, 0x94, 0x08, 0, 0, 0, 0, 0, 0, 0, 0, 0xC1] = some .encPackStatus := by decide

theorem test_decode_enc_temperature :
    decInstr [0xA5, 0x80, 0x96, 0x08, 0, 0, 0, 0, 0, 0, 0, 0, 0xC3] = some .encTemperature := by decide

/-- 0x01F4 = 500, 0x7724 = 30500, 0x03E8 = 1000 (V1); the bytes at 3, 6 and 7 are other than V1's (R44, R46). -/
theorem test_decode_dec_battery_level :
    decInstr [0xA5, 0x01, 0x90, 0x33, 0x01, 0xF4, 0x01, 0x02, 0x77, 0x24, 0x03, 0xE8, 0xE7] =
      some (.decBatteryLevel { b3 := 0x33, vRaw := 500, b6 := 1, b7 := 2, iRaw := 30500, socRaw := 1000 }) := by decide

/-- V7. -/
theorem test_decode_dec_min_max_voltage :
    decInstr mmv.bytes =
      some (.decMinMaxVoltage
        { b3 := 8, vmaxRaw := 3333, vmaxCell := 3, vminRaw := 3300, vminCell := 10, b10 := 0, b11 := 0 }) := by decide

/-- V9. -/
theorem test_decode_dec_min_max_temperature :
    decInstr mmt.bytes =
      some (.decMinMaxTemperature
        { b3 := 8, tmaxRaw := 65, tmaxProbe := 1, tminRaw := 60, tminProbe := 2, b8 := 0, b9 := 0, b10 := 0, b11 := 0 }) := by
  decide

/-- V11. -/
theorem test_decode_dec_mos_status :
    decInstr mos.bytes =
      some (.decMosStatus { b3 := 8, stateRaw := 1, chgRaw := 1, dsgRaw := 0, b7 := 0, capRaw := 100000 }) := by decide

/-- V15. -/
theorem test_decode_dec_pack_status :
    decInstr ps.bytes =
      some (.decPackStatus
        { b3 := 8, cells := 16, b5 := 0, b6 := 0, b7 := 0, b8 := 0, b9 := 0, b10 := 0, b11 := 0 }) := by decide

/-- V20. -/
theorem test_decode_dec_temperature :
    decInstr tt.bytes =
      some (.decTemperature
        { b3 := 8, sel := 1, t1Raw := 65, t2Raw := 63, b7 := 0, b8 := 0, b9 := 0, b10 := 0, b11 := 0 }) := by decide

/-- V22. -/
theorem test_decode_dec_unrecognised :
    decInstr unk.bytes = some (.decUnrecognised ⟨0x95, 0x08, 0x01, 0x0D, 0x05, 0x0D, 0x06, 0x0D, 0x07, 0x00⟩) := by decide

/-- The rejections, each by its name (R40, R49, R50). -/
theorem test_decode_rejects_by_name :
    (match dec (bl.bytes.take 12) with | .error .truncated => true | _ => false) = true ∧
    (match dec (0x00 :: bl.bytes) with | .error (.noStart 0x00) => true | _ => false) = true ∧
    (match dec [0xA5, 0x80, 0x95, 8, 0, 0, 0, 0, 0, 0, 0, 0, 0xC2] with | .error .badRequest => true | _ => false) = true ∧
    (match dec [0xA5, 0x02, 0x90, 8, 0, 0, 0, 0, 0, 0, 0, 0, 0] with
      | .error (.response (.badKind 0x02)) => true | _ => false) = true ∧
    (match dec { bl with b4 := 0x00 }.bytes with
      | .error (.response (.badSum 0xB8 0xB9)) => true | _ => false) = true := by decide

/-- The table's hex strings, byte 0 first, and the same word with byte 0 in its low bits, name the row's instruction. -/
theorem test_table_word_in_both_orders :
    decodeTableWord 104 0xA58094080000000000000000C1 = some .encPackStatus ∧
    decodeTableWord 104 0xC10000000000000000089480A5 = some .encPackStatus := by decide

/-! ### ENC (E1 to E6, E9, E12) -/

/-- What the input `c` leaves in TX after reset. -/
def sent (c : HostInput) : Option (List Byte) := (after (step (waiting c))).map State.tx

theorem test_enc_battery_level :
    sent (.enc (.kind .batteryLevel)) = some [0xA5, 0x80, 0x90, 0x08, 0, 0, 0, 0, 0, 0, 0, 0, 0xBD] := by decide

theorem test_enc_min_max_voltage :
    sent (.enc (.kind .minMaxVoltage)) = some [0xA5, 0x80, 0x91, 0x08, 0, 0, 0, 0, 0, 0, 0, 0, 0xBE] := by decide

theorem test_enc_min_max_temperature :
    sent (.enc (.kind .minMaxTemperature)) = some [0xA5, 0x80, 0x92, 0x08, 0, 0, 0, 0, 0, 0, 0, 0, 0xBF] := by decide

theorem test_enc_mos_status :
    sent (.enc (.kind .mosStatus)) = some [0xA5, 0x80, 0x93, 0x08, 0, 0, 0, 0, 0, 0, 0, 0, 0xC0] := by decide

theorem test_enc_pack_status :
    sent (.enc (.kind .packStatus)) = some [0xA5, 0x80, 0x94, 0x08, 0, 0, 0, 0, 0, 0, 0, 0, 0xC1] := by decide

theorem test_enc_temperature :
    sent (.enc (.kind .temperature)) = some [0xA5, 0x80, 0x96, 0x08, 0, 0, 0, 0, 0, 0, 0, 0, 0xC3] := by decide

/-- E9: type code 0xD3 gives checksum 0x00. -/
theorem test_enc_checksum_wraps :
    (after (exec .encMosStatus { State.reset with cfg := { Config.default with mosStatusCode := 0xD3 } })).map State.tx =
      some [0xA5, 0x80, 0xD3, 0x08, 0, 0, 0, 0, 0, 0, 0, 0, 0x00] := by decide

/-- E12. -/
theorem test_enc_of_a_raw_byte_is_refused :
    (after (step (waiting (.enc (.raw 0x95))))).map (fun t => (t.tx, t.refused)) = some ([], true) := by decide

/-! ### DEC: the publishes of a frame -/

/-- V2. -/
theorem test_dec_battery_level_negative_current :
    published [0xA5, 0x01, 0x90, 0x08, 0x01, 0xF4, 0x00, 0x00, 0x73, 0x3C, 0x03, 0xE8, 0xCD] =
      some [(.voltage, .rational 50), (.current, .rational (-50)), (.batteryLevel, .rational 100)] := by decide +kernel

/-- V4. -/
theorem test_dec_battery_level_maxima :
    published [0xA5, 0x01, 0x90, 0x08, 0xFF, 0xFF, 0xFF, 0xFF, 0xFF, 0xFF, 0xFF, 0xFF, 0x36] =
      some [(.voltage, .rational (mkRat 65535 10)), (.current, .rational (mkRat 35535 10)),
        (.batteryLevel, .rational (mkRat 65535 10))] := by decide +kernel

/-- V7. -/
theorem test_dec_min_max_voltage :
    published mmv.bytes =
      some [(.maxCellVoltage, .rational (mkRat 3333 1000)), (.maxCellIndex, .natural 3),
        (.minCellVoltage, .rational (mkRat 3300 1000)), (.minCellIndex, .natural 10)] := by decide +kernel

/-- V10. -/
theorem test_dec_min_max_temperature_extremes :
    published [0xA5, 0x01, 0x92, 0x08, 0xFF, 0x07, 0x00, 0x00, 0x00, 0x00, 0x00, 0x00, 0x46] =
      some [(.maxTemperature, .integer 215), (.maxTemperatureProbe, .natural 7), (.minTemperature, .integer (-40)),
        (.minTemperatureProbe, .natural 0)] := by decide

/-- V13. -/
theorem test_dec_mos_status_discharging :
    published [0xA5, 0x01, 0x93, 0x08, 0x02, 0x00, 0x01, 0x55, 0x00, 0x00, 0x00, 0x00, 0x99] =
      some [(.packState, .packState .discharging), (.chargeMos, .flag false), (.dischargeMos, .flag true),
        (.remainingCapacity, .rational 0)] := by decide +kernel

/-- V14: an unrecognised state withholds only itself. -/
theorem test_dec_mos_status_unrecognised_state :
    published [0xA5, 0x01, 0x93, 0x08, 0x03, 0x00, 0x02, 0x00, 0xFF, 0xFF, 0xFF, 0xFF, 0x42] =
      some [(.chargeMos, .flag false), (.dischargeMos, .flag true),
        (.remainingCapacity, .rational (mkRat 4294967295 1000))] := by decide +kernel

/-- V16. -/
theorem test_dec_pack_status :
    published [0xA5, 0x01, 0x94, 0x08, 0xFF, 0, 0, 0, 0, 0, 0, 0, 0x41] = some [(.cellCount, .natural 255)] := by decide

/-- V21. -/
theorem test_dec_temperature_extremes :
    published [0xA5, 0x01, 0x96, 0x08, 0x01, 0x00, 0xFF, 0, 0, 0, 0, 0, 0x44] =
      some [(.temperature1, .integer (-40)), (.temperature2, .integer 215)] := by decide

/-- V17: accepted, thirteen bytes on, and nothing published. -/
theorem test_dec_temperature_other_selector :
    (after (step (scanning [0xA5, 0x01, 0x96, 0x08, 0x02, 0x41, 0x3F, 0, 0, 0, 0, 0, 0xC6] .decStep))).map
      (fun t => (t.pub, t.pos, t.last)) = some ([], 13, .acc) := by decide

/-- V22. -/
theorem test_dec_unrecognised : scanned unk.bytes = some ([.acc 0 unk (.unrecognised 0x95)], 13) := by decide

/-! ### The scanner -/

/-- S1 and S3. -/
theorem test_step_exhausted :
    scanned [] = some ([.endExhausted], 0) ∧ scanned [0x00, 0x11, 0x22] = some ([.endExhausted], 3) := by decide

/-- S2 and S12. -/
theorem test_step_truncated :
    scanned (bl.bytes.take 12) = some ([.endTruncated 0], 0) ∧ scanned [0xA5, 0x02, 0x00] = some ([.endTruncated 0], 0) := by
  decide

/-- S4 and S13: a wrong kind is reported even where the sum is wrong too. -/
theorem test_step_rej_kind :
    scanned (0xA5 :: bl.bytes) = some ([.rejKind 0 0xA5], 1) ∧
    scanned [0xA5, 0x02, 0x90, 0x08, 0, 0, 0, 0, 0, 0, 0, 0, 0x00] = some ([.rejKind 0 0x02], 1) := by decide

/-- S5 and S7. -/
theorem test_step_rej_sum :
    scanned (0xA5 :: 0x01 :: bl.bytes) = some ([.rejSum 0 0x74 0x03], 1) ∧
    scanned { bl with b4 := 0x00 }.bytes = some ([.rejSum 0 0xB8 0xB9], 1) := by decide

/-- S10: leading garbage, and exactly thirteen bytes left. -/
theorem test_step_accepts_after_garbage :
    scanned (0x00 :: 0x00 :: bl.bytes) = some ([.acc 2 bl (.batteryLevel 500 30500 1000)], 15) := by decide

/-- S14: the false lock swallows the start of a real frame. -/
theorem test_step_false_lock :
    scanned ([0xA5, 0x01, 0x27, 0x00, 0x00] ++ bl.bytes) =
      some ([.acc 0 ⟨0xA5, 0x01, 0x27, 0x00, 0x00, 0xA5, 0x01, 0x90, 0x08, 0x01, 0xF4, 0x00, 0x00⟩ (.unrecognised 0x27)], 13) := by
  decide

/-! ### Commands -/

/-- X1, X2, X4 and X5. -/
theorem test_refusals :
    (after (step (waiting .decStep))).map State.refusals = some [.notScanning] ∧
    (after (step (scanning bl.bytes (.decLoad [0x00])))).map (fun t => (t.refusals, t.len)) = some ([.busy], 13) ∧
    (after (step { waiting (.decLoad (List.replicate 17 0)) with cfg := { Config.default with bufCap := some 16 } })).map
      (fun t => (t.refusals, t.phase)) = some ([.tooLong], .idle) ∧
    (after (step { scanning bl.bytes (.decLoad (List.replicate 17 0)) with
      cfg := { Config.default with bufCap := some 16 } })).map State.refusals = some [.busy] := by decide

/-- X6 and the example of R62. -/
theorem test_load :
    (after (step (waiting (.decLoad (0xA5 :: bl.bytes))))).map (fun t => (t.len, t.pos, t.phase, t.last)) =
      some (14, 0, .scanning, .none) := by decide

/-- R52: the seven inputs of a cycle, then the pass. -/
theorem test_cycle :
    cycle [0xA5] =
      [.enc (.kind .batteryLevel), .enc (.kind .minMaxVoltage), .enc (.kind .minMaxTemperature), .enc (.kind .mosStatus),
        .enc (.kind .packStatus), .enc (.kind .temperature), .decLoad [0xA5], .decRun] := by decide

/-- R101: a reset in the middle of a pass emits no END event. -/
theorem test_reset_mid_pass :
    (after (step (scanning bl.bytes .reset))).map (fun t => (t.phase, t.evt, t.len)) = some (.idle, [], 0) := by decide

/-- A placed table word is what the very next step runs, a request by ENC and a response by DEC.STEP. -/
theorem test_with_fetch_word :
    (after (step (State.reset.withFetchWord 104 0xA58096080000000000000000C3))).map State.tx =
      some [0xA5, 0x80, 0x96, 0x08, 0, 0, 0, 0, 0, 0, 0, 0, 0xC3] ∧
    (after (step (State.reset.withFetchWord 104 0xA5019408100000000000000052))).map State.pub =
      some [(.cellCount, .natural 16)] := by decide

/-! ### Witnesses: each meets all the hypotheses of the statement it is named after, clause by clause -/

theorem waiting_inv (c : HostInput) : (waiting c).Inv where
  buf_range := rfl
  len_fits := rfl
  pos_le := le_refl _
  idle := fun _ => ⟨rfl, rfl, rfl, rfl⟩
  scanning := fun h => by cases h
  done := fun h => by cases h
  refused := by simp [waiting, State.reset]
  events := by simp [waiting, State.reset]
  published := rfl
  transmitted := ⟨[], rfl⟩

theorem scanning_inv (bs : List Byte) (c : HostInput) : (scanning bs c).Inv where
  buf_range := Memory.latch_keys bs
  len_fits := rfl
  pos_le := Nat.zero_le _
  idle := fun h => by cases h
  scanning := fun _ => by simp [scanning, State.reset]
  done := fun h => by cases h
  refused := by simp [scanning, State.reset]
  events := by simp [scanning, State.reset]
  published := rfl
  transmitted := ⟨[], rfl⟩

theorem candidate_at (bs : List Byte) (c : HostInput) (p : Nat)
    (h : findStart (scanning bs c).buf (scanning bs c).pos ((scanning bs c).len - (scanning bs c).pos) = some p) :
    IsCandidate (scanning bs c) p := findStart_state_eq_some.1 h

theorem frame_at (bs : List Byte) (c : HostInput) (p : Nat) (f : Frame) (h : window (scanning bs c).buf p = some f) :
    HoldsFrame (scanning bs c) p f := window_eq_some.1 h

theorem witness_EncAppendsTheRequestFrame :
    (waiting (.enc (.kind .temperature))).inputs = .enc (.kind .temperature) :: [] ∧
    (waiting (.enc (.raw 0x90))).inputs = .enc (.raw 0x90) :: [] := ⟨rfl, rfl⟩

theorem witness_EncDefaultFrames : State.reset.cfg = Config.default := rfl

theorem witness_EncoderKeepsNoState : State.reset.cfg = (scanning bl.bytes .decStep).cfg := rfl

theorem witness_RequestFramesDifferAtTypeAndChecksum :
    Config.default.wf ∧ MsgKind.batteryLevel ≠ MsgKind.temperature ∧ 2 < 13 ∧ 12 < 13 := by decide

theorem witness_DecodeOfEncodeIsTheInstruction :
    Config.default.wf ∧ (Instr.decUnrecognised ⟨0x95, 8, 1, 2, 3, 4, 5, 6, 7, 8⟩).wf Config.default = true ∧
    Instr.encPackStatus.wf Config.default = true := by decide

theorem witness_EncodeOfDecodeIsTheFrame : decode Config.default (mos.bytes ++ [0xA5]) =
    .ok (.decMosStatus { b3 := 8, stateRaw := 1, chgRaw := 1, dsgRaw := 0, b7 := 0, capRaw := 100000 }) := by decide

theorem witness_AcceptedExactlyWhenStartKindAndChecksumMatch : bl.b0 = 0xA5 := rfl

/-- The field decoders' statements: a scanning state, and a valid frame of each type (of DEC.unrecognised, one of none). -/
theorem witness_DecPublishes :
    (scanning bl.bytes .decStep).phase = .scanning ∧ Config.default.wf ∧
    (validFrame bl ∧ bl.b2 = Config.default.typeCode .batteryLevel) ∧
    (validFrame mmv ∧ mmv.b2 = Config.default.typeCode .minMaxVoltage) ∧
    (validFrame mmt ∧ mmt.b2 = Config.default.typeCode .minMaxTemperature) ∧
    (validFrame mos ∧ mos.b2 = Config.default.typeCode .mosStatus) ∧
    (validFrame ps ∧ ps.b2 = Config.default.typeCode .packStatus) ∧
    (validFrame tt ∧ tt.b2 = Config.default.typeCode .temperature) ∧
    (validFrame unk ∧ ∀ k, unk.b2 ≠ Config.default.typeCode k) ∧ Config.default.mosOff = [0] := by
  refine ⟨rfl, by decide, ?_, ?_, ?_, ?_, ?_, ?_, ⟨?_, fun k => by cases k <;> decide⟩, rfl⟩ <;>
    (unfold validFrame; decide)

theorem witness_AcceptedFrameIsRecordedByDECODE :
    (scanning ps.bytes .decStep).phase = .scanning ∧ validFrame ps ∧
    decodeResponse (scanning ps.bytes .decStep).cfg ps =
      .ok (.decPackStatus { b3 := 8, cells := 16, b5 := 0, b6 := 0, b7 := 0, b8 := 0, b9 := 0, b10 := 0, b11 := 0 }) :=
  ⟨rfl, by unfold validFrame; decide, by decide⟩

theorem witness_DecOutsideScanningIsRefused :
    (∀ k : MsgKind, Instr.decUnrecognised ⟨0x95, 0, 0, 0, 0, 0, 0, 0, 0, 0⟩ ≠ k.encInstr) ∧ State.reset.phase ≠ .scanning :=
  ⟨fun k => by cases k <;> decide, by decide⟩

/-- A value of each of the six domains, at a boundary byte where it has one. -/
theorem witness_ChannelsCarryTheirDomains :
    (.current, offsetScale 0) ∈ publishes Config.default (.batteryLevel 0 0 0) ∧
    (.minCellVoltage, scale 65535 1000) ∈ publishes Config.default (.minMaxVoltage 0 0 65535 255) ∧
    (.minCellIndex, ident 255) ∈ publishes Config.default (.minMaxVoltage 0 0 65535 255) ∧
    (.temperature1, temp 0) ∈ publishes Config.default (.temperature 1 0 255) ∧
    (.packState, .packState .discharging) ∈ publishes Config.default (.mosStatus 2 0 0 0) ∧
    (.chargeMos, flag Config.default 2) ∈ publishes Config.default (.mosStatus 3 2 0 0) := by decide +kernel

theorem witness_StepRunsTheDecodedInstruction :
    ((waiting (.enc (.kind .mosStatus))).cfg.wf ∧
      (waiting (.enc (.kind .mosStatus))).inputs = .enc (.kind .mosStatus) :: []) ∧
    (∀ c, (scanning ps.bytes c).phase = .scanning ∧ IsCandidate (scanning ps.bytes c) 0 ∧ 0 + 13 ≤ (scanning ps.bytes c).len ∧
      HoldsFrame (scanning ps.bytes c) 0 ps ∧ ps.b1 ≠ 0x80 ∧ (scanning ps.bytes c).inputs = c :: [] ∧
      decode (scanning ps.bytes c).cfg ps.bytes =
        .ok (.decPackStatus { b3 := 8, cells := 16, b5 := 0, b6 := 0, b7 := 0, b8 := 0, b9 := 0, b10 := 0, b11 := 0 })) :=
  ⟨⟨by decide, rfl⟩, fun c => ⟨rfl, candidate_at _ c 0 (by rfl), Nat.le_refl 13, frame_at _ c 0 _ (by rfl), by decide, rfl, by rfl⟩⟩

theorem witness_StepEndsWhenNoStartByteIsLeft :
    (scanning [0x00, 0x11] .decStep).inputs = .decStep :: [] ∧ (scanning [0x00, 0x11] .decStep).phase = .scanning ∧
    ∀ i, (scanning [0x00, 0x11] .decStep).pos ≤ i → i < (scanning [0x00, 0x11] .decStep).len →
      (scanning [0x00, 0x11] .decStep).buf.read i ≠ some 0xA5 := ⟨rfl, rfl, findStart_state_eq_none.1 (by decide)⟩

/-- Twelve bytes from the candidate on, and thirteen. -/
theorem witness_StepEndsOnATruncatedFrame :
    (∀ bs : List Byte, (scanning bs .decStep).inputs = .decStep :: [] ∧ (scanning bs .decStep).phase = .scanning) ∧
    (IsCandidate (scanning (bl.bytes.take 12) .decStep) 0 ∧ (scanning (bl.bytes.take 12) .decStep).len - 0 < 13) ∧
    (IsCandidate (scanning bl.bytes .decStep) 0 ∧ ¬ (scanning bl.bytes .decStep).len - 0 < 13 ∧
      ∃ t, step (scanning bl.bytes .decStep) = .next t) :=
  ⟨fun _ => ⟨rfl, rfl⟩, ⟨candidate_at _ _ 0 (by decide), by decide⟩,
    candidate_at _ _ 0 (by decide), by decide, _, by rfl⟩

theorem witness_StepRejectsAWrongFrameKind :
    IsCandidate (scanning (requestFrame Config.default .batteryLevel).bytes .decStep) 0 ∧
    0 + 13 ≤ (scanning (requestFrame Config.default .batteryLevel).bytes .decStep).len ∧
    HoldsFrame (scanning (requestFrame Config.default .batteryLevel).bytes .decStep) 0 (requestFrame Config.default .batteryLevel) ∧
    (requestFrame Config.default .batteryLevel).b1 ≠ 0x01 :=
  ⟨candidate_at _ _ 0 (by decide), by decide, frame_at _ _ 0 _ (by decide), by decide⟩

theorem witness_StepRejectsAWrongChecksum :
    IsCandidate (scanning { bl with b4 := 0 }.bytes .decStep) 0 ∧ 0 + 13 ≤ (scanning { bl with b4 := 0 }.bytes .decStep).len ∧
    HoldsFrame (scanning { bl with b4 := 0 }.bytes .decStep) 0 { bl with b4 := 0 } ∧ { bl with b4 := 0 }.b1 = 0x01 ∧
    { bl with b4 := 0 }.checksum ≠ { bl with b4 := 0 }.b12 :=
  ⟨candidate_at _ _ 0 (by decide), by decide, frame_at _ _ 0 _ (by decide), by decide, by decide⟩

/-- A valid frame, one of an unrecognised type, and a temperature frame of another selector. -/
theorem witness_StepAcceptsAValidFrame :
    (∀ f ∈ [bl, unk, { tt with b4 := 2, b12 := 0xC6 }],
      (scanning f.bytes .decStep).inputs = .decStep :: [] ∧ (scanning f.bytes .decStep).phase = .scanning ∧
      IsCandidate (scanning f.bytes .decStep) 0 ∧ 0 + 13 ≤ (scanning f.bytes .decStep).len ∧
      HoldsFrame (scanning f.bytes .decStep) 0 f ∧ validFrame f) ∧
    (∀ k, unk.b2 ≠ Config.default.typeCode k) ∧ Config.default.wf ∧
    { tt with b4 := 2, b12 := 0xC6 }.b2 = Config.default.typeCode .temperature ∧ { tt with b4 := 2, b12 := 0xC6 }.b4 ≠ 1 := by
  refine ⟨?_, fun k => by cases k <;> decide, by decide, by decide, by decide⟩
  simp only [List.mem_cons, List.not_mem_nil, or_false]
  rintro f (rfl | rfl | rfl) <;>
    exact ⟨rfl, rfl, candidate_at _ _ 0 (by decide), by decide, frame_at _ _ 0 _ (by decide), by unfold validFrame; decide⟩

/-- BUF_CAP itself is taken; one byte more is TOO_LONG. -/
theorem witness_RefusedCommandsChangeOnlyTheMark :
    ((waiting .decStep).inputs = .decStep :: [] ∧ (waiting .decStep).phase ≠ .scanning) ∧
    ((scanning bl.bytes (.decLoad [])).inputs = .decLoad [] :: [] ∧ (scanning bl.bytes (.decLoad [])).phase = .scanning) ∧
    ({ waiting (.decLoad [0, 0, 0]) with cfg := { Config.default with bufCap := some 2 } }.inputs = .decLoad [0, 0, 0] :: [] ∧
      { waiting (.decLoad [0, 0, 0]) with cfg := { Config.default with bufCap := some 2 } }.phase ≠ .scanning ∧
      2 < [(0 : Byte), 0, 0].length) ∧
    (waiting (.enc (.raw 0x95))).inputs = .enc (.raw 0x95) :: [] := by decide

theorem witness_LoadLatchesTheBuffer :
    { waiting (.decLoad [0, 0]) with cfg := { Config.default with bufCap := some 2 } }.inputs = .decLoad [0, 0] :: [] ∧
    { waiting (.decLoad [0, 0]) with cfg := { Config.default with bufCap := some 2 } }.phase ≠ .scanning ∧
    ∀ c, some 2 = some c → [(0 : Byte), 0].length ≤ c :=
  ⟨rfl, by decide, fun c h => by cases h; decide⟩

theorem witness_RunIsStepsWhileScanning :
    (scanning bl.bytes .decRun).inputs = .decRun :: [] ∧ (scanning bl.bytes .decRun).phase = .scanning ∧
    (waiting .decRun).inputs = .decRun :: [] ∧ (waiting .decRun).phase ≠ .scanning := by decide

theorem witness_ResetAbandonsThePass : (scanning bl.bytes .reset).inputs = .reset :: [] := rfl

theorem witness_NothingHappensUnasked : State.reset.inputs = [] := rfl

/-- A step of each writer: DEC.LOAD, DEC.STEP, ENC, and a refused command in a state where REFUSED is set. -/
theorem witness_ElementsChangeOnlyByTheirWriters :
    ∀ s ∈ [waiting (.decLoad [0xA5]), scanning bl.bytes .decStep, waiting (.enc (.kind .mosStatus)),
        { waiting .decStep with refused := true, refusals := [.busy] }],
      ∃ c rest t, s.inputs = c :: rest ∧ c ≠ .reset ∧ step s = .next t := by
  simp only [List.mem_cons, List.not_mem_nil, or_false]
  rintro s (rfl | rfl | rfl | rfl) <;> exact ⟨_, _, _, rfl, by decide, by rfl⟩

/-- Each of R89's four refusals sets REFUSED: TOO_LONG by one byte, BAD_KIND of a byte that is a type code. -/
theorem witness_ElementsChangeOnlyByTheirWriters_refused :
    ∀ x ∈ [(waiting .decStep, CmdRefusal.notScanning), (scanning bl.bytes (.decLoad []), .busy),
        ({ waiting (.decLoad [1, 2]) with cfg := { Config.default with bufCap := some 1 } }, .tooLong),
        (waiting (.enc (.raw 0x90)), .badKind)],
      ∃ c rest t, x.1.inputs = c :: rest ∧ Refuses x.1 c x.2 ∧ step x.1 = .next t ∧ t.refused ≠ x.1.refused ∧
        t.refusals = [x.2] := by
  simp only [List.mem_cons, List.not_mem_nil, or_false]
  rintro x (rfl | rfl | rfl | rfl)
  · exact ⟨_, _, _, rfl, .notScanning (by decide), by rfl, by decide, rfl⟩
  · exact ⟨_, _, _, rfl, .busy _ rfl, by rfl, by decide, rfl⟩
  · exact ⟨_, _, _, rfl, .tooLong _ 1 (by decide) rfl (by decide), by rfl, by decide, rfl⟩
  · exact ⟨_, _, _, rfl, .badKind _, by rfl, by decide, rfl⟩

theorem witness_StreamsOnlyGrow :
    (∃ t, step (scanning bl.bytes .decStep) = .next t) ∧ (scanning bl.bytes .decStep).inputs.head? ≠ some .reset :=
  ⟨⟨_, by rfl⟩, by decide⟩

theorem witness_NoStepChangesTheInstance : ∃ t, step (scanning bl.bytes .reset) = .next t := ⟨_, by rfl⟩

theorem witness_LastIsTheKindOfTheEvent :
    (∃ t, step (scanning bl.bytes .decRun) = .next t ∧ (scanning bl.bytes .decRun).inputs.head? = some .decRun ∧
      (scanning bl.bytes .decRun).phase = .scanning) ∧
    (∃ t, step (waiting (.decLoad [0xA5])) = .next t ∧ t.refusals = (waiting (.decLoad [0xA5])).refusals ∧
      (waiting (.decLoad [0xA5])).inputs.head? = some (.decLoad [0xA5])) ∧
    (∃ t, step (waiting (.enc (.raw 0))) = .next t ∧ (waiting (.enc (.raw 0))).inputs.head? = some (.enc (.raw 0))) :=
  ⟨⟨_, rfl, rfl, rfl⟩, ⟨_, rfl, rfl, rfl⟩, ⟨_, rfl, rfl⟩⟩

/-- StepKeepsInv, NoStepIsFatal, BufferHoldsExactlyTheIndicesBelowLen: states of the invariant in two phases, and their
steps. -/
theorem witness_StepKeepsInv :
    ((scanning bl.bytes .decStep).Inv ∧ ∃ t, step (scanning bl.bytes .decStep) = .next t) ∧
    ((waiting (.decLoad bl.bytes)).Inv ∧ ∃ t, step (waiting (.decLoad bl.bytes)) = .next t) :=
  ⟨⟨scanning_inv _ _, _, by rfl⟩, ⟨waiting_inv _, _, by rfl⟩⟩

theorem witness_NothingIsPublishedUnvalidated :
    ∃ t, step (scanning ps.bytes .decStep) = .next t ∧ t.pub = [] ++ [(.cellCount, .natural 16)] ∧
      (scanning ps.bytes .decStep).inputs.head? ≠ some .reset := ⟨_, rfl, rfl, by decide⟩

theorem witness_CursorMovesForwardWithinLen :
    (scanning bl.bytes .decStep).Inv ∧ (scanning bl.bytes .decStep).inputs = .decStep :: [] ∧
    (scanning bl.bytes .decStep).phase = .scanning := ⟨scanning_inv _ _, rfl, rfl⟩

/-- EveryPassEnds, on an empty buffer and on one that holds a frame. -/
theorem witness_EveryPassEnds :
    ∀ bs ∈ [[], bl.bytes], (scanning bs .decRun).Inv ∧ (scanning bs .decRun).phase = .scanning ∧
      (scanning bs .decRun).inputs = .decRun :: [] := fun _ _ => ⟨scanning_inv _ _, rfl, rfl⟩

theorem witness_PassPositionsRiseAndFramesNeverOverlap :
    (scanning bl.bytes .decRun).phase = .scanning ∧ (scanning bl.bytes .decRun).inputs = [.decRun] ∧
    ∃ t, core.run 2 (scanning bl.bytes .decRun) = .next t := ⟨rfl, rfl, _, by rfl⟩

theorem witness_NoStateCarriesOverBetweenPasses :
    ∃ s s' : State, s.Inv ∧ s'.Inv ∧ s ≠ s' ∧ s.cfg = s'.cfg ∧ s.phase ≠ .scanning ∧ s'.phase ≠ .scanning ∧
      (∀ c, s.cfg.bufCap = some c → bl.bytes.length ≤ c) ∧ s.inputs = [.decLoad bl.bytes, .decRun] ∧
      s'.inputs = [.decLoad bl.bytes, .decRun] := by
  refine ⟨{ State.reset with inputs := [.decLoad bl.bytes, .decRun] },
    { State.reset with
      refused := true, refusals := [.notScanning], tx := (requestFrame Config.default .mosStatus).bytes
      inputs := [.decLoad bl.bytes, .decRun] },
    ⟨rfl, rfl, le_refl _, fun _ => ⟨rfl, rfl, rfl, rfl⟩, ?_, ?_, by decide, by simp [State.reset], rfl, [], rfl⟩,
    ⟨rfl, rfl, le_refl _, fun _ => ⟨rfl, rfl, rfl, rfl⟩, ?_, ?_, by decide, by simp [State.reset], rfl, [.mosStatus], rfl⟩,
    by decide, rfl, by decide, by decide, fun c h => (by cases h), rfl, rfl⟩ <;> (intro h; cases h)

/-- The lowest and the highest offset the statement covers. -/
theorem witness_OneChangedByteIsRejected :
    validFrame bl ∧ { bl with b2 := 0x91 }.bytes = bl.bytes.set 2 0x91 ∧ bl.bytes[2]? ≠ some 0x91 ∧
    { bl with b12 := 0x39 }.bytes = bl.bytes.set 12 0x39 ∧ bl.bytes[12]? ≠ some 0x39 :=
  ⟨by unfold validFrame; decide, by decide, by decide, by decide, by decide⟩

theorem witness_EchoedRequestIsRejectedAndHidesNothing :
    ∃ s : State, s.cfg = Config.default ∧ s.inputs = .decStep :: [] ∧ s.phase = .scanning ∧ IsCandidate s 0 ∧
      0 + 13 ≤ s.len ∧ HoldsFrame s 0 (requestFrame s.cfg .batteryLevel) :=
  ⟨scanning ((requestFrame Config.default .batteryLevel).bytes ++ bl.bytes) .decStep, rfl, rfl, rfl,
    candidate_at _ _ 0 (by decide), by decide, frame_at _ _ 0 _ (by decide)⟩

end Sys2Proof.Tests
end

section
/-! The family 00_scope.md: the arithmetic primitives of R13 and the MOS_FLAG parameter of R9. -/

namespace Sys2Proof.Machine

/-! ### MOS_FLAG -/

/-- MOS_FLAG through the instance's list of off bytes. -/
theorem mosFlag_eq_true_iff (cfg : Config) (b : Byte) : mosFlag cfg b = true ↔ b ∉ cfg.mosOff := by
  simp [mosFlag]

/-- The `b != 0` form of decision D8, in every instance whose one off byte is zero. -/
theorem mosFlag_eq_true_iff_ne_zero {cfg : Config} (hoff : cfg.mosOff = [0]) (b : Byte) :
    mosFlag cfg b = true ↔ b ≠ 0 := by
  rw [mosFlag_eq_true_iff, hoff, List.mem_singleton]

/-! ### The statements -/

/-- Settles O7, from the codec's law for each of the three helpers. -/
theorem sumAndBigEndianAsNumbers : Obligations.SumAndBigEndianAsNumbers :=
  ⟨sum8_toNat, be16_toNat, be32_toNat⟩

/-- Settles O12: the default instance's one off byte is zero. -/
theorem defaultMosFlagIsNonzero : Obligations.DefaultMosFlagIsNonzero :=
  mosFlag_eq_true_iff_ne_zero rfl

end Sys2Proof.Machine
end

section
/-! The family 10_state.md: the invariant and its step, the frame of every step over the elements of R17, the
independence of a pass from what lies behind it (R25), and the status view (R21). -/

namespace Sys2Proof.Machine

/-! ### An accepted load -/

/-- The state a DEC.LOAD that is not refused answers, with the inputs that are left (R62). -/
def State.loaded (s : State) (b : List Byte) (rest : List HostInput) : State :=
  { s.withInputs rest with buf := Memory.latch b, len := b.length, pos := 0, last := .none, phase := .scanning }

theorem step_load {s : State} {b : List Byte} {rest : List HostInput} (h : s.inputs = .decLoad b :: rest)
    (hp : s.phase ≠ .scanning) (hf : fitsCap s.cfg b.length = true) : step s = .next (s.loaded b rest) := by
  obtain ⟨hs, -⟩ | ⟨-, hn, -⟩ | ⟨-, -, e⟩ := loadBuffer_cases b (s.withInputs rest)
  · exact absurd hs hp
  · exact absurd (hf.symm.trans hn) (by decide)
  · exact (step_decLoad h).trans e

/-! ### What keeps the invariant -/

/-- The reset state of an instance has the invariant (R100). -/
theorem State.resetOf_inv (cfg : Config) : (State.resetOf cfg).Inv where
  buf_range := rfl
  len_fits := (fitsCap_iff _ _).2 fun c _ => Nat.zero_le c
  pos_le := le_rfl
  idle := fun _ => ⟨rfl, rfl, rfl, rfl⟩
  scanning := nofun
  done := nofun
  refused := by simp
  events := by simp
  published := rfl
  transmitted := ⟨[], rfl⟩

/-- One more request frame keeps TX whole frames (R34). -/
theorem State.Inv.transmit {s : State} (h : s.Inv) (k : MsgKind) :
    ({ s with tx := s.tx ++ (requestFrame s.cfg k).bytes } : State).Inv where
  __ := h
  transmitted := by
    obtain ⟨ks, hks⟩ := h.transmitted
    exact ⟨ks ++ [k], by simp [hks]⟩

/-- A refusal sets REFUSED and is recorded at once (R89). -/
theorem State.Inv.refuse {s : State} (h : s.Inv) (r : CmdRefusal) : (s.refuse r).Inv where
  __ := h
  refused := by simp

/-- A buffer that fits begins a pass (R62). -/
theorem State.Inv.loaded {s : State} (h : s.Inv) {b : List Byte} (hf : fitsCap s.cfg b.length = true)
    (rest : List HostInput) : (s.loaded b rest).Inv where
  __ := h
  buf_range := Memory.latch_keys b
  len_fits := hf
  pos_le := Nat.zero_le _
  idle := nofun
  scanning := fun _ => List.mem_cons_self
  done := nofun

/-- Settles O41: each thing a step can do keeps the invariant. -/
theorem stepKeepsInv : Obligations.StepKeepsInv := by
  intro s t hi h
  cases step_eq_next h with
  | idle => exact hi
  | encoded k rest => exact (hi.congr_inputs rest).transmit k
  | refused c rest r => exact (hi.congr_inputs rest).refuse r
  | loaded b rest _ _ hf => exact hi.loaded hf rest
  | scanned c rest left _ _ _ e q he => exact (hi.congr_inputs left).afterEvent (EventAt.withInputs.2 he)
  | ran rest => exact hi.congr_inputs rest
  | reset rest => exact (State.resetOf_inv s.cfg).congr_inputs rest

/-! ### What a step adds to the streams, and what it leaves alone -/

/-- Settles O37: every stream is kept or appended to, but by a reset. -/
theorem streamsOnlyGrow : Obligations.StreamsOnlyGrow := by
  intro s t h hr
  cases step_eq_next h with
  | idle | refused | loaded | ran => exact ⟨List.prefix_rfl, List.prefix_rfl, List.prefix_rfl⟩
  | encoded => exact ⟨List.prefix_rfl, List.prefix_rfl, List.prefix_append _ _⟩
  | scanned => exact ⟨List.prefix_append _ _, List.prefix_append _ _, List.prefix_rfl⟩
  | reset rest hin => simp [hin] at hr

/-- Settles O38: nothing a step does writes the parameters. -/
theorem noStepChangesTheInstance : Obligations.NoStepChangesTheInstance := by
  intro s t h
  cases step_eq_next h <;> rfl

/-- Settles O36: what a step did names the command it took, and each command writes only its own elements. -/
theorem elementsChangeOnlyByTheirWriters : Obligations.ElementsChangeOnlyByTheirWriters := by
  intro s t c rest hin hc h
  cases step_eq_next h with
  | idle hin' => simp [hin] at hin'
  | encoded k rest' hin' =>
    obtain ⟨rfl, rfl⟩ := List.cons.inj (hin.symm.trans hin')
    simp
  | refused c' rest' r hin' hr =>
    obtain ⟨rfl, rfl⟩ := List.cons.inj (hin.symm.trans hin')
    simpa using hr
  | loaded b rest' hin' =>
    obtain ⟨rfl, rfl⟩ := List.cons.inj (hin.symm.trans hin')
    simp
  | scanned c' rest' left hin' hcmd =>
    obtain ⟨rfl, rfl⟩ := List.cons.inj (hin.symm.trans hin')
    have hcmd' : c = .decStep ∨ c = .decRun := hcmd.imp And.left And.left
    simp [hcmd']
  | ran rest' hin' =>
    obtain ⟨rfl, rfl⟩ := List.cons.inj (hin.symm.trans hin')
    simp
  | reset rest' hin' => exact absurd (List.cons.inj (hin.symm.trans hin')).1 hc

/-- Settles O39: LAST is written with the event by a DEC.STEP, and by a DEC.LOAD that is not refused. -/
theorem lastIsTheKindOfTheEvent : Obligations.LastIsTheKindOfTheEvent := by
  intro s t h
  cases step_eq_next h with
  | idle hin => simp [hin]
  | encoded k rest hin => simp [hin]
  | refused c rest r hin hr =>
    cases hr with
    | notScanning hp => simp [hin, hp]
    | busy | tooLong | badKind => simp [hin]
  | loaded b rest hin => simp [hin]
  | scanned c rest left hin hc hp e q =>
    refine ⟨fun _ _ => ⟨e, rfl, rfl⟩, ?_, ?_⟩ <;> obtain ⟨rfl, -⟩ | ⟨rfl, -⟩ := hc <;> simp [hin]
  | ran rest hin hp => simp [hin, hp]
  | reset rest hin => simp [hin]

/-! ### The cursor -/

/-- A step never moves the cursor back (R19). -/
theorem EventAt.pos_le {s : State} {q : Nat} {e : Event} (h : EventAt s q e) (hs : s.pos ≤ s.len) : s.pos ≤ q := by
  cases e with
  | acc | rejKind | rejSum => exact (h.lt rfl).le
  | endExhausted => exact h.2 ▸ hs
  | endTruncated p => obtain ⟨⟨h1, -⟩, -, rfl⟩ := h; exact h1

/-- An event that ends no pass is a candidate rejected or accepted, and its kind says how far the cursor moves past
it (R67 to R69). -/
theorem EventAt.advance {s : State} {q : Nat} {e : Event} (h : EventAt s q e) (he : e.isEnd = false) :
    ∃ p, IsCandidate s p ∧ ((e.last = .rejKind ∨ e.last = .rejSum) ∧ q = p + 1 ∨ e.last = .acc ∧ q = p + 13) := by
  cases e with
  | acc p => obtain ⟨hc, -, -, -, -, rfl⟩ := h; exact ⟨p, hc, .inr ⟨rfl, rfl⟩⟩
  | rejKind p => obtain ⟨hc, -, -, -, rfl⟩ := h; exact ⟨p, hc, .inl ⟨.inl rfl, rfl⟩⟩
  | rejSum p => obtain ⟨hc, -, -, -, rfl⟩ := h; exact ⟨p, hc, .inl ⟨.inr rfl, rfl⟩⟩
  | endExhausted => cases he
  | endTruncated => cases he

/-- Settles O45: the step emits one event, and where the event leaves the cursor depends on whether it ends the pass. -/
theorem cursorMovesForwardWithinLen : Obligations.CursorMovesForwardWithinLen := by
  intro s rest hi hin hp
  obtain ⟨t, ht⟩ := decStep_next (hi.congr_inputs rest)
  obtain ⟨hn, -⟩ | ⟨-, e, q, he', rfl⟩ := decStep_eq_next ht
  · exact absurd hp hn
  have he : EventAt s q e := EventAt.withInputs.1 he'
  refine ⟨_, (step_decStep hin).trans ht, he.pos_le hi.pos_le, he.le_len, rfl, ?_⟩
  cases hend : e.isEnd with
  | true => exact .inl (by simp [hend])
  | false => exact .inr ⟨by simp [hend], he.lt hend, he.advance hend⟩

/-! ### No state carries over between passes -/

/-- Two blocks that a pass cannot tell apart: they agree in all that a DEC.RUN reads, and nothing else waits. -/
structure SamePass (s s' : State) : Prop where
  cfg : s.cfg = s'.cfg
  buf : s.buf = s'.buf
  len : s.len = s'.len
  pos : s.pos = s'.pos
  phase : s.phase = s'.phase
  last : s.last = s'.last
  inputs : s.inputs = s'.inputs
  waiting : s.inputs = [] ∨ s.inputs = [.decRun]

/-- `t` is `s` with the events `es` and the publishes `ps` added, and nothing transmitted. -/
structure Adds (s t : State) (es : List Event) (ps : List Publish) : Prop where
  evt : t.evt = s.evt ++ es
  pub : t.pub = s.pub ++ ps
  tx : t.tx = s.tx

theorem Adds.withInputs (s : State) (rest : List HostInput) : Adds s (s.withInputs rest) [] [] :=
  ⟨by simp, by simp, rfl⟩

theorem Adds.refl (s : State) : Adds s s [] [] := .withInputs s s.inputs

theorem Adds.afterEvent (s : State) (e : Event) (q : Nat) : Adds s (s.afterEvent e q) [e] (e.publishes s.cfg) :=
  ⟨rfl, rfl, rfl⟩

theorem Adds.trans {s t u : State} {es es' : List Event} {ps ps' : List Publish} (h : Adds s t es ps)
    (h' : Adds t u es' ps') : Adds s u (es ++ es') (ps ++ ps') where
  evt := by rw [h'.evt, h.evt, List.append_assoc]
  pub := by rw [h'.pub, h.pub, List.append_assoc]
  tx := h'.tx.trans h.tx

theorem SamePass.statusView {s s' : State} (h : SamePass s s') : s.statusView = s'.statusView := by
  simp [State.statusView, h.phase, h.last, h.pos, h.len]

/-- Two such blocks take the same step: both stay, both end DEC.RUN, or both emit the one event there is to find. -/
theorem SamePass.step_alike {s s' : State} (h : SamePass s s') (hi : s.Inv) :
    ∃ t t' es ps, step s = .next t ∧ step s' = .next t' ∧ SamePass t t' ∧
      Adds s t es ps ∧ Adds s' t' es ps := by
  obtain hin | hin := h.waiting
  · have hin' := h.inputs.symm.trans hin
    exact ⟨s, s', [], [], step_idle hin, step_idle hin', h, .refl s, .refl s'⟩
  have hin' := h.inputs.symm.trans hin
  by_cases hp : s.phase = .scanning
  · have hp' := h.phase.symm.trans hp
    obtain ⟨t, ht⟩ := decStep_next hi
    obtain ⟨hn, -⟩ | ⟨-, e, q, he, rfl⟩ := decStep_eq_next ht
    · exact absurd hp hn
    have he' : EventAt s' q e := he.congr h.cfg h.buf h.len h.pos
    refine ⟨_, s'.afterEvent e q, [e], e.publishes s.cfg, (step_decRun_scanning hin hp).trans ht,
      (step_decRun_scanning hin' hp').trans (he'.decStep_eq hp'), ?_, .afterEvent s e q,
      h.cfg ▸ .afterEvent s' e q⟩
    exact { h with pos := rfl, phase := rfl, last := rfl }
  · have hp' : s'.phase ≠ .scanning := h.phase ▸ hp
    refine ⟨_, _, [], [], step_decRun_over hin hp, step_decRun_over hin' hp', ?_, .withInputs s _, .withInputs s' _⟩
    exact { h with inputs := rfl, waiting := .inl rfl }

/-- They do so for any number of steps. -/
theorem SamePass.run_alike (n : Nat) {s s' : State} (h : SamePass s s') (hi : s.Inv) :
    ∃ t t' es ps, core.run n s = .next t ∧ core.run n s' = .next t' ∧ SamePass t t' ∧
      Adds s t es ps ∧ Adds s' t' es ps := by
  induction n generalizing s s' with
  | zero => exact ⟨s, s', [], [], rfl, rfl, h, .refl s, .refl s'⟩
  | succ n ih =>
    obtain ⟨u, u', es, ps, hu, hu', hsame, ha, ha'⟩ := h.step_alike hi
    obtain ⟨t, t', es', ps', ht, ht', hsame', hb, hb'⟩ := ih hsame (stepKeepsInv s u hi hu)
    exact ⟨t, t', es ++ es', ps ++ ps', (run_succ n hu).trans ht, (run_succ n hu').trans ht', hsame', ha.trans hb,
      ha'.trans hb'⟩

/-- Settles O48: the load leaves two blocks that a pass cannot tell apart, and they run alike from there. -/
theorem noStateCarriesOverBetweenPasses : Obligations.NoStateCarriesOverBetweenPasses := by
  intro s s' b n hi hi' hcfg hp hp' hb hin hin'
  have hf : fitsCap s.cfg b.length = true := (fitsCap_iff _ _).2 hb
  have hsame : SamePass (s.loaded b [.decRun]) (s'.loaded b [.decRun]) :=
    ⟨hcfg, rfl, rfl, rfl, rfl, rfl, rfl, .inr rfl⟩
  obtain ⟨t, t', es, ps, ht, ht', hsame', ha, ha'⟩ := hsame.run_alike n (hi.loaded hf _)
  exact ⟨t, t', es, ps, (run_succ n (step_load hin hp hf)).trans ht,
    (run_succ n (step_load hin' hp' (hcfg ▸ hf))).trans ht', ha.evt, ha'.evt, ha.pub, ha'.pub,
    hsame'.buf, hsame'.statusView, ha.tx, ha'.tx⟩

/-! ### The encoder and the status view -/

/-- Settles O5: the bytes are the request frame's, which reads the kind and the instance and nothing else. -/
theorem encoderKeepsNoState : Obligations.EncoderKeepsNoState := by
  refine ⟨fun s s' k hcfg => ⟨(requestFrame s.cfg k).bytes, Frame.bytes_length _, ?_, ?_⟩, fun _ _ _ => rfl⟩
  · rw [exec_encInstr, transmitRequest_eq]
  · rw [exec_encInstr, transmitRequest_eq, hcfg]

/-- No two phases share a code: the code, as a number, gives the phase back. -/
theorem Phase.code_injective : Function.Injective Phase.code :=
  Function.LeftInverse.injective (g := fun c => Phase.ofNat c.toNat) fun p => by cases p <;> rfl

/-- No two outcomes share a code. -/
theorem Last.code_injective : Function.Injective Last.code :=
  Function.LeftInverse.injective (g := fun c => Last.ofNat c.toNat) fun l => by cases l <;> rfl

theorem Phase.code_ne_three (p : Phase) : p.code ≠ 3 := by cases p <;> decide

theorem Last.code_lt_six (l : Last) : l.code < 6 := by cases l <;> decide

/-- Settles O35: both codes are injective, and each statement is one value of them. -/
theorem statusViewCodes : Obligations.StatusViewCodes := by
  intro s
  have phase (p : Phase) : s.statusView.phase = p.code ↔ s.phase = p := Phase.code_injective.eq_iff
  have last (l : Last) : s.statusView.last = l.code ↔ s.last = l := Last.code_injective.eq_iff
  have hlt : s.statusView.last < 6 := s.last.code_lt_six
  exact ⟨rfl, rfl, s.phase.code_ne_three, by bv_omega, by bv_omega, phase .idle, phase .scanning, phase .done,
    last .none, last .acc, last .rejKind, last .rejSum, last .endExhausted, last .endTruncated⟩

end Sys2Proof.Machine
end


section
/-! The family 20_memory.md: what the invariant says of the buffer. -/

namespace Sys2Proof.Machine

/-- Settles O43: the buffer lists the addresses 0 to LEN-1 in order, so it is in canonical form, and a read answers a byte
exactly at a listed address. -/
theorem bufferHoldsExactlyTheIndicesBelowLen : Obligations.BufferHoldsExactlyTheIndicesBelowLen := fun _ hi =>
  ⟨hi.buf_wf, fun a => Option.isSome_iff_exists.symm.trans (hi.read_isSome a)⟩

end Sys2Proof.Machine
end


section
/-! The family 30_encoding.md: the request frame (R41, R42), the round trips of the decoder and the encoder (R43, R45,
R46), and the instruction a step runs (R51, R52). -/

namespace Sys2Proof

/-! ### The decoder on one frame and on a byte list -/

/-- The decoder reads the first thirteen bytes and nothing after them (R40). -/
@[simp] theorem decode_bytes_append (cfg : Config) (f : Frame) (rest : List Byte) :
    decode cfg (f.bytes ++ rest) = decodeFrame cfg f := by
  simp [decode]

@[simp] theorem decode_bytes (cfg : Config) (f : Frame) : decode cfg f.bytes = decodeFrame cfg f := by
  simp [decode]

/-- Bytes that decode begin with a frame that decodes to the same instruction. -/
theorem decode_eq_ok {cfg : Config} {bs : List Byte} {i : Instr} (h : decode cfg bs = .ok i) :
    ∃ f rest, bs = f.bytes ++ rest ∧ decodeFrame cfg f = .ok i := by
  cases hf : Frame.ofBytes bs with
  | none => simp [decode, hf] at h
  | some f =>
    obtain ⟨rest, rfl⟩ := Frame.ofBytes_eq_some hf
    exact ⟨f, rest, rfl, (decode_bytes_append cfg f rest).symm.trans h⟩

theorem decodeRequest_eq_ok {cfg : Config} {f : Frame} {i : Instr} (h : decodeRequest cfg f = .ok i) :
    ∃ k, f = requestFrame cfg k ∧ i = k.encInstr := by
  unfold decodeRequest at h
  split at h
  · next k hk =>
    have hf : requestFrame cfg k = f := by simpa using List.find?_some hk
    exact ⟨k, hf.symm, (Except.ok.inj h).symm⟩
  · cases h

/-- Everything that decodes: a request frame to its ENC row, or a frame the response decoder takes (R42, R43). -/
theorem decodeFrame_eq_ok {cfg : Config} {f : Frame} {i : Instr} (h : decodeFrame cfg f = .ok i) :
    f.b0 = startByte ∧ ((∃ k, f = requestFrame cfg k ∧ i = k.encInstr) ∨ decodeResponse cfg f = .ok i) := by
  unfold decodeFrame at h
  split_ifs at h with h0 h1
  · exact ⟨not_not.1 h0, .inl (decodeRequest_eq_ok h)⟩
  · refine ⟨not_not.1 h0, .inr ?_⟩
    cases hr : decodeResponse cfg f with
    | error r => simp [hr, Except.mapError] at h
    | ok j => simpa [hr, Except.mapError] using h

theorem decodeFrame_requestFrame {cfg : Config} (h : cfg.wf) (k : MsgKind) :
    decodeFrame cfg (requestFrame cfg k) = .ok k.encInstr :=
  decodeRequest_requestFrame h k

/-- What the response decoder takes, the whole decoder takes. -/
theorem decodeFrame_of_decodeResponse {cfg : Config} {f : Frame} {i : Instr} (h0 : f.b0 = startByte)
    (h : decodeResponse cfg f = .ok i) : decodeFrame cfg f = .ok i := by
  obtain ⟨h1, h2, rfl⟩ := decodeResponse_eq_ok h
  rw [eq_responseFrame h0 h1 h2]
  exact decodeFrame_responseFrame cfg ..

/-! ### The encoder, then the decoder -/

/-- A response frame under a kind's type byte holds that kind's fields (R45, R46). -/
theorem decodeFrame_responseFrame_typeCode {cfg : Config} (h : cfg.wf) (k : MsgKind)
    (b3 b4 b5 b6 b7 b8 b9 b10 b11 : Byte) :
    decodeFrame cfg (responseFrame (cfg.typeCode k) b3 b4 b5 b6 b7 b8 b9 b10 b11) =
      .ok (decodeFields (responseFrame (cfg.typeCode k) b3 b4 b5 b6 b7 b8 b9 b10 b11) k) := by
  rw [decodeFrame_responseFrame, decodeAccepted_typeCode h rfl]

/-- A type byte that names no kind selects DEC.unrecognised (R45, R83). -/
theorem decodeAccepted_of_not_isTypeCode {cfg : Config} {f : Frame} (h : cfg.isTypeCode f.b2 = false) :
    decodeAccepted cfg f = .decUnrecognised ⟨f.b2, f.b3, f.b4, f.b5, f.b6, f.b7, f.b8, f.b9, f.b10, f.b11⟩ := by
  have hk : cfg.kindOf f.b2 = none :=
    (cfg.kindOf_eq_none _).2 fun k hk => by simp [(cfg.isTypeCode_iff _).2 ⟨k, hk⟩] at h
  simp [decodeAccepted, hk]

/-- An ENC row's frame is its kind's request. A DEC row's frame has its kind's type byte and, at the kind's offsets, the
bytes of its fields; the type byte of DEC.unrecognised is no kind's. -/
theorem decodeFrame_encode {cfg : Config} (h : cfg.wf) (i : Instr) (hi : i.wf cfg = true) :
    decodeFrame cfg (encode cfg i) = .ok i := by
  cases i with
  | encBatteryLevel => exact decodeFrame_requestFrame h .batteryLevel
  | encMinMaxVoltage => exact decodeFrame_requestFrame h .minMaxVoltage
  | encMinMaxTemperature => exact decodeFrame_requestFrame h .minMaxTemperature
  | encMosStatus => exact decodeFrame_requestFrame h .mosStatus
  | encPackStatus => exact decodeFrame_requestFrame h .packStatus
  | encTemperature => exact decodeFrame_requestFrame h .temperature
  | decBatteryLevel x | decMinMaxVoltage x | decMinMaxTemperature x | decMosStatus x | decPackStatus x
  | decTemperature x =>
    rw [encode, decodeFrame_responseFrame_typeCode h]
    simp [decodeFields, responseFrame]
  | decUnrecognised x =>
    have ht : cfg.isTypeCode x.t = false := by simpa [Instr.wf] using hi
    rw [encode, decodeFrame_responseFrame, decodeAccepted_of_not_isTypeCode ht]
    rfl

/-! ### The decoder, then the encoder -/

theorem encInstr_wf (cfg : Config) (k : MsgKind) : k.encInstr.wf cfg = true := by cases k <;> rfl

theorem wf_of_decodeFrame {cfg : Config} {f : Frame} {i : Instr} (h : decodeFrame cfg f = .ok i) :
    i.wf cfg = true := by
  obtain ⟨-, ⟨k, -, rfl⟩ | hr⟩ := decodeFrame_eq_ok h
  · exact encInstr_wf cfg k
  · obtain ⟨-, -, rfl⟩ := decodeResponse_eq_ok hr
    exact decodeAccepted_wf cfg f

theorem encode_of_decodeFrame {cfg : Config} {f : Frame} {i : Instr} (h : decodeFrame cfg f = .ok i) :
    encode cfg i = f := by
  obtain ⟨h0, ⟨k, rfl, rfl⟩ | hr⟩ := decodeFrame_eq_ok h
  · exact encode_encInstr cfg k
  · exact encode_of_decodeResponse h0 hr

/-! ### What is accepted -/

/-- The two tests of a candidate (R43, R67, R68). -/
theorem decodeResponse_isOk_iff (cfg : Config) (f : Frame) :
    (∃ i, decodeResponse cfg f = .ok i) ↔ f.b1 = rspKind ∧ f.b12 = f.checksum := by
  constructor
  · rintro ⟨i, h⟩
    obtain ⟨h1, h2, -⟩ := decodeResponse_eq_ok h
    exact ⟨h1, h2.symm⟩
  · rintro ⟨h1, h2⟩
    exact ⟨decodeAccepted cfg f, by simp [decodeResponse, h1, h2]⟩

/-- A field decoder's instruction comes from the response decoder, and only from it. -/
theorem decodeFrame_ne_enc_iff (cfg : Config) (f : Frame) (i : Instr) :
    (decodeFrame cfg f = .ok i ∧ ∀ k : MsgKind, i ≠ k.encInstr) ↔
      f.b0 = startByte ∧ decodeResponse cfg f = .ok i := by
  constructor
  · rintro ⟨h, hne⟩
    obtain ⟨h0, ⟨k, -, hk⟩ | hr⟩ := decodeFrame_eq_ok h
    · exact absurd hk (hne k)
    · exact ⟨h0, hr⟩
  · rintro ⟨h0, hr⟩
    obtain ⟨-, -, rfl⟩ := decodeResponse_eq_ok hr
    exact ⟨decodeFrame_of_decodeResponse h0 hr, decodeAccepted_ne_encInstr cfg f⟩

end Sys2Proof

namespace Sys2Proof.Machine

/-! ### The statements about the codec -/

/-- Settles O8: the decoder reads the encoded frame alone, and that frame decodes to the instruction. -/
theorem decodeOfEncodeIsTheInstruction : Obligations.DecodeOfEncodeIsTheInstruction := by
  intro cfg i rest h hi
  rw [decode_bytes_append, decodeFrame_encode h i hi]

/-- Settles O9: the frame read is the first thirteen bytes, and it is the encoding of what it decodes to. -/
theorem encodeOfDecodeIsTheFrame : Obligations.EncodeOfDecodeIsTheFrame := by
  intro cfg bs i h
  obtain ⟨f, rest, rfl, hf⟩ := decode_eq_ok h
  exact ⟨wf_of_decodeFrame hf, by rw [encode_of_decodeFrame hf, List.take_left' f.bytes_length]⟩

/-- Settles O10: the whole decoder answers a field decoder exactly where byte 0 is the start byte and the response decoder
accepts. -/
theorem acceptedExactlyWhenStartKindAndChecksumMatch :
    Obligations.AcceptedExactlyWhenStartKindAndChecksumMatch := by
  intro cfg f
  refine ⟨?_, fun _ => decodeResponse_isOk_iff cfg f⟩
  simp only [decodeFrame_ne_enc_iff, exists_and_left, decodeResponse_isOk_iff]
  rfl

/-- Settles O1: the frame is the definition's, and its checksum is `0x2D + t` in byte arithmetic. -/
theorem requestFrameLayout : Obligations.RequestFrameLayout := by
  intro cfg k
  exact ⟨rfl, by rw [requestFrame_b12, BitVec.toNat_add]; rfl⟩

/-- Settles O2, by the codec's two laws of a request frame. -/
theorem requestSatisfiesResponseChecksum : Obligations.RequestSatisfiesResponseChecksum := fun cfg k =>
  ⟨(requestFrame_checksum cfg k).symm, decodeResponse_requestFrame cfg k⟩

/-- Settles O11: closed facts of the default instance, each the decoder run on one frame. -/
theorem writtenOutFramesDecode : Obligations.WrittenOutFramesDecode :=
  ⟨by decide, by decide, by decide, by decide⟩

/-! ### The statements about the step -/

/-- The instruction a whole candidate decodes to is the one a DEC.STEP runs there. -/
theorem decStep_of_decode {s : State} {p : Nat} {f : Frame} {i : Instr} (h : s.phase = .scanning)
    (hc : IsCandidate s p) (hl : p + 13 ≤ s.len) (hf : HoldsFrame s p f) (hk : f.b1 ≠ reqAddr)
    (hd : decode s.cfg f.bytes = .ok i) : decStep s = exec i (s.setPos p) := by
  rw [decode_bytes] at hd
  obtain ⟨-, ⟨k, rfl, -⟩ | hr⟩ := decodeFrame_eq_ok hd
  · exact absurd rfl hk
  · obtain ⟨h1, h2, rfl⟩ := decodeResponse_eq_ok hr
    exact (decStep_accept h hc hl hf h1 h2).1

/-- Settles O23: ENC runs the row its request decodes to, and a DEC.STEP or a turn of DEC.RUN the candidate's. -/
theorem stepRunsTheDecodedInstruction : Obligations.StepRunsTheDecodedInstruction := by
  intro s rest
  constructor
  · intro k hwf hin
    exact ⟨k.encInstr, by rw [decode_bytes, decodeFrame_requestFrame hwf k], step_enc hin⟩
  · intro p f i hp hc hl hf hk hd
    constructor
    · intro hin
      exact (step_decStep hin).trans (decStep_of_decode (s := s.withInputs rest) hp hc hl hf hk hd)
    · intro hin
      exact (step_decRun_scanning hin hp).trans (decStep_of_decode hp hc hl hf hk hd)

/-- Settles O31: in SCANNING both steps are the DEC.STEP of `s` itself. -/
theorem runIsStepsWhileScanning : Obligations.RunIsStepsWhileScanning := by
  intro s rest hin
  refine ⟨fun hp => ?_, step_decRun_over hin⟩
  have hstep : step { s with inputs := .decStep :: s.inputs } = decStep s := step_decStep rfl
  exact (step_decRun_scanning hin hp).trans hstep.symm

end Sys2Proof.Machine
end


section
/-! The family 40_encoder.md: what ENC appends (R54 to R60), and how the request frames of two kinds differ (R61). -/

namespace Sys2Proof

/-! ### Two kinds' request frames -/

/-- The checksum is a constant plus the type byte (R41). -/
theorem requestFrame_b12_eq_iff (cfg : Config) (k k' : MsgKind) :
    (requestFrame cfg k).b12 = (requestFrame cfg k').b12 ↔ cfg.typeCode k = cfg.typeCode k' := by
  rw [requestFrame_b12, requestFrame_b12, BitVec.add_right_inj]

/-- One kind's frame is another's with two bytes written anew (R61). -/
theorem requestFrame_bytes_eq_set (cfg : Config) (k k' : MsgKind) :
    (requestFrame cfg k').bytes =
      ((requestFrame cfg k).bytes.set 2 (cfg.typeCode k')).set 12 (requestFrame cfg k').b12 := rfl

/-- Where the frames of two kinds agree: at every offset but those two, and there only if the type codes coincide, which
an instance that is not well formed allows. -/
theorem requestFrame_getElem?_eq_iff (cfg : Config) (k k' : MsgKind) (i : Nat) :
    (requestFrame cfg k).bytes[i]? = (requestFrame cfg k').bytes[i]? ↔
      (i = 2 ∨ i = 12 → cfg.typeCode k = cfg.typeCode k') := by
  obtain rfl | h2 := eq_or_ne i 2
  · simp [Frame.bytes, requestFrame]
  obtain rfl | h12 := eq_or_ne i 12
  · simpa [Frame.bytes] using requestFrame_b12_eq_iff cfg k k'
  · rw [requestFrame_bytes_eq_set cfg k k', List.getElem?_set_ne h12.symm, List.getElem?_set_ne h2.symm]
    simp [h2, h12]

end Sys2Proof

namespace Sys2Proof.Machine

/-! ### The ENC rows -/

/-- ENC of a kind appends its request frame to TX and changes nothing else (R54). -/
theorem exec_encInstr_eq (k : MsgKind) (s : State) :
    exec k.encInstr s = .next { s with tx := s.tx ++ (requestFrame s.cfg k).bytes } :=
  (exec_encInstr k s).trans (transmitRequest_eq k s)

theorem exec_encInstr_default {s : State} (h : s.cfg = Config.default) (k : MsgKind) :
    exec k.encInstr s = .next { s with tx := s.tx ++ (requestFrame Config.default k).bytes } := by
  rw [exec_encInstr_eq, h]

/-! ### The statements -/

/-- Settles O6: the header is the definition's, the checksum is the layout's, and two frames agree at offsets 2 and 12
only where the type codes do, which a well-formed instance keeps distinct. -/
theorem requestFramesDifferAtTypeAndChecksum : Obligations.RequestFramesDifferAtTypeAndChecksum := by
  intro cfg hwf
  constructor
  · intro k
    have hsum : (requestFrame cfg k).b12.toNat = (0x2D + (cfg.typeCode k).toNat) % 256 := (requestFrameLayout cfg k).2
    exact ⟨rfl, rfl, rfl, by omega, decodeResponse_requestFrame cfg k⟩
  · intro k k' hk i _
    have hcode : cfg.typeCode k ≠ cfg.typeCode k' := (cfg.wf_iff.1 hwf).ne hk
    simp only [ne_eq, requestFrame_getElem?_eq_iff, hcode, imp_false, not_not]

/-- Settles O3: each ENC row transmits its kind's frame, a command ENC of a kind runs that row, and a raw byte is
refused BAD_KIND. -/
theorem encAppendsTheRequestFrame : Obligations.EncAppendsTheRequestFrame := by
  intro s
  refine ⟨?_, ?_, ?_⟩
  · simp only [List.forall_mem_cons, List.not_mem_nil, false_implies, implies_true, and_true]
    exact ⟨exec_encInstr_eq .batteryLevel s, exec_encInstr_eq .minMaxVoltage s, exec_encInstr_eq .minMaxTemperature s,
      exec_encInstr_eq .mosStatus s, exec_encInstr_eq .packStatus s, exec_encInstr_eq .temperature s⟩
  · intro k rest hin
    exact (step_enc hin).trans (exec_encInstr_eq k (s.withInputs rest))
  · intro b rest hin
    exact ⟨_, step_encRaw hin, rfl, rfl, rfl, rfl, rfl, rfl, rfl, rfl, rfl⟩

/-- Settles O4: each row transmits its kind's frame in the default instance, whose thirteen bytes are closed terms. -/
theorem encDefaultFrames : Obligations.EncDefaultFrames := fun _ h =>
  ⟨exec_encInstr_default h .batteryLevel, exec_encInstr_default h .minMaxVoltage,
    exec_encInstr_default h .minMaxTemperature, exec_encInstr_default h .mosStatus,
    exec_encInstr_default h .packStatus, exec_encInstr_default h .temperature⟩

end Sys2Proof.Machine
end


section
/-! The family 41_scanner.md: the branches of one DEC.STEP (R65 to R69), DEC.LOAD (R62), and what holds along a pass:
that it ends (R72), that its events rise and its frames never overlap (R74), that nothing is published unvalidated
(R73), and that the checksum detects any one changed byte (R68). -/

namespace Sys2Proof

/-! ### One changed byte -/

/-- What writing one byte does to the sum: the new byte comes in and the old one goes out. -/
theorem sum8_set_add_getElem {xs : List Byte} {k : Nat} (hk : k < xs.length) (v : Byte) :
    sum8 (xs.set k v) + xs[k] = sum8 xs + v := by
  induction xs generalizing k with
  | nil => simp at hk
  | cons x xs ih =>
    cases k with
    | zero =>
      simp only [List.set_cons_zero, List.getElem_cons_zero, sum8_cons]
      ac_rfl
    | succ k =>
      have hk' : k < xs.length := by simpa using hk
      simp only [List.set_cons_succ, List.getElem_cons_succ, sum8_cons, add_assoc, ih hk']

/-- So the sum changes with any one of its bytes. -/
theorem sum8_set_ne {xs : List Byte} {k : Nat} {v : Byte} (hk : k < xs.length) (hv : xs[k]? ≠ some v) :
    sum8 (xs.set k v) ≠ sum8 xs := by
  intro he
  have hsum := sum8_set_add_getElem hk v
  rw [he, add_right_inj] at hsum
  exact hv (by rw [List.getElem?_eq_getElem hk, hsum])

theorem Frame.checksum_eq_sum8_take (f : Frame) : f.checksum = sum8 (f.bytes.take 12) := rfl

/-- A byte the write does not touch. -/
theorem Frame.getElem?_bytes_of_set {f g : Frame} {k i : Nat} {v : Byte} (hg : g.bytes = f.bytes.set k v)
    (hi : k ≠ i) : g.bytes[i]? = f.bytes[i]? := by
  rw [hg, List.getElem?_set_ne hi]

/-- Writing another byte anywhere parts the checksum from the byte that stores it. -/
theorem Frame.checksum_ne_of_set {f g : Frame} {k : Nat} {v : Byte} (hf : f.checksum = f.b12) (hk : k ≤ 12)
    (hg : g.bytes = f.bytes.set k v) (hv : f.bytes[k]? ≠ some v) : g.checksum ≠ g.b12 := by
  have hsum : g.checksum = sum8 ((f.bytes.take 12).set k v) := by
    rw [g.checksum_eq_sum8_take, hg, List.take_set]
  obtain rfl | hlt := Nat.eq_or_lt_of_le hk
  · have hb12 : g.b12 = v := by
      have h : g.bytes[12]? = some v := by rw [hg, List.getElem?_set_self (by simp)]
      exact Option.some.inj h
    have hsame : g.checksum = f.checksum := by
      rw [hsum, List.set_eq_of_length_le (by simp), ← f.checksum_eq_sum8_take]
    rw [hsame, hf, hb12]
    exact fun h => hv (congrArg some h)
  · have hb12 : g.b12 = f.b12 := Option.some.inj (Frame.getElem?_bytes_of_set (i := 12) hg hlt.ne)
    rw [hb12, ← hf, hsum, f.checksum_eq_sum8_take]
    exact sum8_set_ne (by simpa using hlt) (by rwa [List.getElem?_take_of_lt hlt])

end Sys2Proof

namespace Sys2Proof.Machine

/-! ### One step -/

/-- A DEC.STEP emits the event there is to find. -/
theorem step_decStep_of_eventAt {s : State} {rest : List HostInput} (hin : s.inputs = .decStep :: rest)
    (hp : s.phase = .scanning) {e : Event} {q : Nat} (he : EventAt s q e) :
    step s = .next ((s.withInputs rest).afterEvent e q) :=
  (step_decStep hin).trans (EventAt.decStep_eq (s := s.withInputs rest) hp (EventAt.withInputs.2 he))

/-- An END publishes nothing and ends the pass (R65, R66). -/
theorem step_decStep_of_isEnd {s : State} {rest : List HostInput} (hin : s.inputs = .decStep :: rest)
    (hp : s.phase = .scanning) {e : Event} {q : Nat} (he : EventAt s q e) (hend : e.isEnd = true) :
    step s =
      .next { s with inputs := rest, phase := .done, pos := q, last := e.last, evt := s.evt ++ [e] } := by
  have hpub : e.publishes s.cfg = [] := by
    cases e with
    | endExhausted | endTruncated => rfl
    | acc | rejKind | rejSum => cases hend
  rw [step_decStep_of_eventAt hin hp he]
  simp [State.afterEvent, State.withInputs, hend, hpub]

/-- Any other event leaves the phase alone (R67 to R69). -/
theorem step_decStep_of_not_isEnd {s : State} {rest : List HostInput} (hin : s.inputs = .decStep :: rest)
    (hp : s.phase = .scanning) {e : Event} {q : Nat} (he : EventAt s q e) (hend : e.isEnd = false) :
    step s =
      .next
        { s with
          inputs := rest, pos := q, last := e.last, evt := s.evt ++ [e], pub := s.pub ++ e.publishes s.cfg } := by
  rw [step_decStep_of_eventAt hin hp he]
  simp [State.afterEvent, State.withInputs, hend, hp]

/-- A rejection publishes nothing, so it writes POS, LAST and EVT alone (R67, R68). -/
theorem step_decStep_of_reject {s : State} {rest : List HostInput} (hin : s.inputs = .decStep :: rest)
    (hp : s.phase = .scanning) {e : Event} {q : Nat} (he : EventAt s q e) (hend : e.isEnd = false)
    (hpub : e.publishes s.cfg = []) :
    step s = .next { s with inputs := rest, pos := q, last := e.last, evt := s.evt ++ [e] } := by
  simpa [hpub] using step_decStep_of_not_isEnd hin hp he hend

/-- In SCANNING a DEC.STEP that answers a next state has emitted an event. -/
theorem step_decStep_eq_next {s t : State} {rest : List HostInput} (hin : s.inputs = .decStep :: rest)
    (hp : s.phase = .scanning) (h : step s = .next t) :
    ∃ e q, EventAt s q e ∧ t = (s.withInputs rest).afterEvent e q := by
  rw [step_decStep hin] at h
  obtain ⟨hn, -⟩ | ⟨-, e, q, he, rfl⟩ := decStep_eq_next h
  · exact absurd hp hn
  · exact ⟨e, q, EventAt.withInputs.1 he, rfl⟩

/-- So has a turn of DEC.RUN, with the command still to come. -/
theorem step_decRun_eq_next {s t : State} {rest : List HostInput} (hin : s.inputs = .decRun :: rest)
    (hp : s.phase = .scanning) (h : step s = .next t) : ∃ e q, EventAt s q e ∧ t = s.afterEvent e q := by
  rw [step_decRun_scanning hin hp] at h
  obtain ⟨hn, -⟩ | ⟨-, hev⟩ := decStep_eq_next h
  · exact absurd hp hn
  · exact hev

/-- Under the invariant there is an event to find. -/
theorem exists_step_decRun {s : State} {rest : List HostInput} (hi : s.Inv) (hin : s.inputs = .decRun :: rest)
    (hp : s.phase = .scanning) : ∃ e q, EventAt s q e ∧ step s = .next (s.afterEvent e q) := by
  obtain ⟨t, ht⟩ := decStep_next hi
  have hstep := (step_decRun_scanning hin hp).trans ht
  obtain ⟨e, q, he, rfl⟩ := step_decRun_eq_next hin hp hstep
  exact ⟨e, q, he, hstep⟩

/-! ### What an event says of the buffer -/

/-- An event that ends no pass has thirteen bytes ahead of the cursor (R66). -/
theorem EventAt.window_le_len {s : State} {q : Nat} {e : Event} (h : EventAt s q e) (he : e.isEnd = false) :
    s.pos + 13 ≤ s.len := by
  cases e with
  | acc p | rejKind p | rejSum p => obtain ⟨⟨h1, -⟩, h2, -⟩ := h; omega
  | endExhausted | endTruncated => cases he

/-- It leaves fewer positions a window can stand at, of which there are `max(0, LEN - POS - 12)` (R72). -/
theorem EventAt.windows_left_lt {s : State} {q : Nat} {e : Event} (h : EventAt s q e) (he : e.isEnd = false) :
    s.len - q - 12 < s.len - s.pos - 12 := by
  have hlt : s.pos < q := h.lt he
  have hwin : s.pos + 13 ≤ s.len := h.window_le_len he
  omega

/-- A whole window at the candidate ends no pass, and the cursor moves beyond it (R66). -/
theorem EventAt.of_candidate {s : State} {q p : Nat} {e : Event} (h : EventAt s q e) (hc : IsCandidate s p)
    (hl : p + 13 ≤ s.len) : e.isEnd = false ∧ p < q := by
  have he : e.isEnd = false := by
    cases e with
    | acc | rejKind | rejSum => rfl
    | endExhausted => exact absurd hc.2.2.1 (h.1 p hc.1 hc.2.1)
    | endTruncated p' =>
      obtain ⟨hc', ht, -⟩ := h
      obtain rfl := hc.unique hc'
      omega
  obtain ⟨p', hc', hq⟩ := h.advance he
  obtain rfl := hc.unique hc'
  exact ⟨he, by omega⟩

/-- Only an accepted frame publishes, and what it publishes is its record (R73). -/
theorem EventAt.of_publishes_ne_nil {s : State} {q : Nat} {e : Event} (h : EventAt s q e)
    (hne : e.publishes s.cfg ≠ []) :
    ∃ p f, IsCandidate s p ∧ HoldsFrame s p f ∧ validFrame f ∧ e = .acc p f (decodeRecord s.cfg f) := by
  cases e with
  | acc p f r =>
    obtain ⟨hc, -, hf, hv, rfl, -⟩ := h
    exact ⟨p, f, hc, hf, hv, rfl⟩
  | rejKind | rejSum | endExhausted | endTruncated => exact absurd rfl hne

/-! ### The records that publish nothing -/

/-- A type byte of no kind makes an unrecognised record (R83). -/
theorem decodeRecord_of_forall_ne {cfg : Config} {f : Frame} (h : ∀ k, f.b2 ≠ cfg.typeCode k) :
    decodeRecord cfg f = .unrecognised f.b2 := by
  simp [decodeRecord, h]

/-- Distinct type codes select the temperature record by its own byte (R82). -/
theorem decodeRecord_temperature {cfg : Config} (hwf : cfg.wf) {f : Frame}
    (h : f.b2 = cfg.typeCode .temperature) : decodeRecord cfg f = .temperature f.b4 f.b5 f.b6 := by
  simp [decodeRecord, h, (cfg.wf_iff.1 hwf).eq_iff]

/-! ### A pass -/

/-- Once the pass is over a DEC.RUN adds no event, however long it is run. -/
theorem run_decRun_over_evt {s t : State} {n : Nat} (hp : s.phase ≠ .scanning) (hin : s.inputs = [.decRun])
    (h : core.run n s = .next t) : t.evt = s.evt := by
  cases n with
  | zero => cases h; rfl
  | succ n =>
    rw [run_succ n (step_decRun_over hin hp), run_idle n rfl] at h
    cases h
    rfl

/-- `e'` stands beyond `e`, and beyond the thirteen bytes of `e` where that is an accepted frame. -/
def Event.Before (e e' : Event) : Prop :=
  ∀ p p', e.position = some p → e'.position = some p' → p < p' ∧ (e.last = .acc → p + 13 ≤ p')

/-- The event stands at `q` or beyond. -/
def Event.AtOrAfter (q : Nat) (e : Event) : Prop := ∀ p, e.position = some p → q ≤ p

theorem Event.AtOrAfter.mono {q q' : Nat} {e : Event} (h : e.AtOrAfter q) (hq : q' ≤ q) : e.AtOrAfter q' :=
  fun p hp => hq.trans (h p hp)

theorem EventAt.atOrAfter {s : State} {q : Nat} {e : Event} (h : EventAt s q e) : e.AtOrAfter s.pos :=
  fun _ hp => (h.position hp).1

/-- What stands at or after the cursor an event leaves stands beyond the event. -/
theorem EventAt.before {s : State} {q : Nat} {e e' : Event} (h : EventAt s q e) (he : e.isEnd = false)
    (h' : e'.AtOrAfter q) : e.Before e' := by
  intro p p' hp hp'
  obtain ⟨-, hlt, hacc⟩ := h.position hp
  exact ⟨(hlt he).trans_le (h' p' hp'), fun ha => (hacc ha).trans (h' p' hp')⟩

/-- The events a DEC.RUN adds stand one beyond the other, all at or after the cursor it starts from. -/
theorem run_decRun_pairwise (n : Nat) {s t : State} (hp : s.phase = .scanning) (hin : s.inputs = [.decRun])
    (h : core.run n s = .next t) :
    ∃ es : List Event, t.evt = s.evt ++ es ∧ es.Pairwise Event.Before ∧ ∀ e ∈ es, e.AtOrAfter s.pos := by
  induction n generalizing s with
  | zero =>
    cases h
    exact ⟨[], by simp, .nil, by simp⟩
  | succ n ih =>
    obtain ⟨u, hu, hrun⟩ := run_succ_eq_next h
    obtain ⟨e, q, he, rfl⟩ := step_decRun_eq_next hin hp hu
    cases hend : e.isEnd with
    | true =>
      have hevt := run_decRun_over_evt (s := s.afterEvent e q) (by simp [hend]) hin hrun
      exact ⟨[e], hevt, List.pairwise_singleton _ _, by simpa using he.atOrAfter⟩
    | false =>
      obtain ⟨es, hevt, hpw, hes⟩ := ih (s := s.afterEvent e q) (by simp [hend]) hin hrun
      refine ⟨e :: es, by simp [hevt], hpw.cons fun x hx => he.before hend (hes x hx), ?_⟩
      rintro x (_ | ⟨_, hx⟩)
      · exact he.atOrAfter
      · exact (hes x hx).mono (he.lt hend).le

/-! ### The statements about a pass -/

/-- Settles O46, by induction on the window positions left: an event that is no END uses up at least one of them. -/
theorem everyPassEnds : Obligations.EveryPassEnds := by
  intro s rest hi hp hin
  induction hn : s.len - s.pos - 12 using Nat.strong_induction_on generalizing s with
  | _ n ih =>
    obtain ⟨e, q, he, hstep⟩ := exists_step_decRun hi hin hp
    cases hend : e.isEnd with
    | true => exact ⟨_, [], e, run_succ 0 hstep, Nat.zero_le _, by simp [hend], rfl, rfl, hend, by simp⟩
    | false =>
      have hleft : s.len - q - 12 < n := hn ▸ he.windows_left_lt hend
      obtain ⟨t, es, e', hrun, hlen, hdone, hinputs, hevt, hend', hes⟩ :=
        ih _ hleft (s.afterEvent e q) (hi.afterEvent he) (by simp [hend]) hin rfl
      exact ⟨t, e :: es, e', (run_succ _ hstep).trans hrun, hlen.trans_lt hleft, hdone, hinputs, by simp [hevt],
        hend', by simpa [hend] using hes⟩

/-- Settles O47, by the cursor: each event stands at or after it, and before where it moves. -/
theorem passPositionsRiseAndFramesNeverOverlap : Obligations.PassPositionsRiseAndFramesNeverOverlap := by
  intro s t n hp hin h
  obtain ⟨es, hevt, hpw, -⟩ := run_decRun_pairwise n hp hin h
  exact ⟨es, hevt, hpw⟩

/-! ### The statements about a step -/

/-- Settles O24: with no start byte left the event is END_EXHAUSTED, with the cursor at LEN (D14). -/
theorem stepEndsWhenNoStartByteIsLeft : Obligations.StepEndsWhenNoStartByteIsLeft := by
  intro s rest hin hp hn
  have he : EventAt s s.len .endExhausted := ⟨hn, rfl⟩
  exact step_decStep_of_isEnd hin hp he rfl

/-- Settles O25: too short a candidate ends the pass, and a whole one ends none. -/
theorem stepEndsOnATruncatedFrame : Obligations.StepEndsOnATruncatedFrame := by
  intro s rest p hin hp hc
  constructor
  · intro hlt
    have he : EventAt s p (.endTruncated p) := ⟨hc, by omega, rfl⟩
    exact step_decStep_of_isEnd hin hp he rfl
  · intro hge t ht
    obtain ⟨e, q, he, rfl⟩ := step_decStep_eq_next hin hp ht
    obtain ⟨hend, hq⟩ := he.of_candidate hc (by omega)
    exact ⟨by simp [hend], hq⟩

/-- Settles O26: the event of a wrong kind byte does not depend on the checksum. -/
theorem stepRejectsAWrongFrameKind : Obligations.StepRejectsAWrongFrameKind := by
  intro s rest p f hin hp hc hl hf hk
  have he : EventAt s (p + 1) (.rejKind p f.b1) := ⟨hc, hl, ⟨f, hf, rfl⟩, hk, rfl⟩
  exact step_decStep_of_reject hin hp he rfl rfl

/-- Settles O27: with the right kind byte the checksum decides, and the event holds both sums. -/
theorem stepRejectsAWrongChecksum : Obligations.StepRejectsAWrongChecksum := by
  intro s rest p f hin hp hc hl hf hk hx
  have he : EventAt s (p + 1) (.rejSum p f.checksum f.b12) := ⟨hc, hl, ⟨f, hf, hk, rfl, rfl⟩, hx, rfl⟩
  exact step_decStep_of_reject hin hp he rfl rfl

/-- Settles O28: the ACC event carries `DECODE(F)`, and in the two cases named that record publishes nothing. -/
theorem stepAcceptsAValidFrame : Obligations.StepAcceptsAValidFrame := by
  intro s rest p f hin hp hc hl hf hv
  refine ⟨?_, ?_, ?_⟩
  · have he : EventAt s (p + 13) (.acc p f (decodeRecord s.cfg f)) := ⟨hc, hl, hf, hv, rfl, rfl⟩
    exact step_decStep_of_not_isEnd hin hp he rfl
  · intro hno
    rw [decodeRecord_of_forall_ne hno, publishes]
  · intro hwf ht hsel
    rw [decodeRecord_temperature hwf ht]
    exact if_neg hsel

/-- Settles O30: the buffer is the latched bytes. -/
theorem loadLatchesTheBuffer : Obligations.LoadLatchesTheBuffer := fun _ _ b hin hp hcap =>
  ⟨Memory.latch b, Memory.latch_wf b, Memory.read_latch b, step_load hin hp ((fitsCap_iff _ _).2 hcap)⟩

/-- Settles O44: of all a step can do only an event publishes, and of all events only an ACC. -/
theorem nothingIsPublishedUnvalidated : Obligations.NothingIsPublishedUnvalidated := by
  intro s t h hr
  cases step_eq_next h with
  | idle | encoded | refused | loaded | ran => exact ⟨[], by simp, by simp⟩
  | scanned c rest left _ _ _ e q he =>
    refine ⟨e.publishes s.cfg, rfl, fun hne => ?_⟩
    obtain ⟨p, f, hc, hf, hv, rfl⟩ := he.of_publishes_ne_nil hne
    exact ⟨p, f, hc, hf, hv, rfl, rfl⟩
  | reset rest hin => simp [hin] at hr

/-- Settles O49: the kind byte is untouched, and the checksum no longer matches. -/
theorem oneChangedByteIsRejected : Obligations.OneChangedByteIsRejected := by
  intro cfg f g k v hf h2 h12 hg hv
  have hb1 : g.b1 = f.b1 := Option.some.inj (Frame.getElem?_bytes_of_set (i := 1) hg (by omega))
  have hkind : g.b1 = rspKind := hb1.trans hf.2.1
  have hsum : g.checksum ≠ g.b12 := Frame.checksum_ne_of_set hf.2.2.symm h12 hg hv
  exact ⟨g.checksum, g.b12, by simp [decodeResponse, hkind, hsum]⟩

end Sys2Proof.Machine
end


section
/-! The family 42_field_decode.md: what the field decoders accept and publish (R76 to R83), and the domain of every
channel (R84). -/

namespace Sys2Proof

/-! ### Ranges of the published values -/

/-- A scaled field lies between zero and its scaled bound. -/
theorem natCast_div_mem_range {n m : Nat} (h : n ≤ m) (d : Nat) :
    0 ≤ (n : Rat) / d ∧ (n : Rat) / d ≤ (m : Rat) / d :=
  ⟨by positivity, by gcongr⟩

theorem half_toNat_le (raw : Half) : raw.toNat ≤ 65535 := Nat.le_of_lt_succ raw.isLt

/-- The range of a current, in amperes (R77). -/
theorem current_mem_range (raw : Half) :
    -3000 ≤ (((raw.toNat : Int) - 30000 : Int) : Rat) / 10 ∧
      (((raw.toNat : Int) - 30000 : Int) : Rat) / 10 ≤ 35535 / 10 := by
  have hle : (raw.toNat : Rat) ≤ 65535 := mod_cast half_toNat_le raw
  have hge : 0 ≤ (raw.toNat : Rat) := Nat.cast_nonneg _
  push_cast
  constructor <;> linarith

/-- The range of a temperature, in degrees (R79). -/
theorem temperature_mem_range (raw : Byte) : -40 ≤ (raw.toNat : Int) - 40 ∧ (raw.toNat : Int) - 40 ≤ 215 := by
  have := raw.isLt
  omega

end Sys2Proof

namespace Sys2Proof.Machine

/-! ### The publishes of each record, in exact values -/

theorem scale_eq (raw d : Nat) : scale raw d = .rational ((raw : Rat) / d) := by
  rw [scale, Rat.mkRat_eq_div, Int.cast_natCast]

theorem offsetScale_eq (raw : Half) :
    offsetScale raw = .rational ((((raw.toNat : Int) - 30000 : Int) : Rat) / 10) := by
  rw [offsetScale, Rat.mkRat_eq_div, currentOffset, Nat.cast_ofNat]

theorem publishes_batteryLevel (cfg : Config) (v i soc : Half) :
    publishes cfg (.batteryLevel v i soc) =
      [(.voltage, .rational ((v.toNat : Rat) / 10)),
        (.current, .rational ((((i.toNat : Int) - 30000 : Int) : Rat) / 10)),
        (.batteryLevel, .rational ((soc.toNat : Rat) / 10))] := by
  simp only [publishes, scale_eq, offsetScale_eq, Nat.cast_ofNat]

theorem publishes_minMaxVoltage (cfg : Config) (vmax vmin : Half) (vmaxCell vminCell : Byte) :
    publishes cfg (.minMaxVoltage vmax vmaxCell vmin vminCell) =
      [(.maxCellVoltage, .rational ((vmax.toNat : Rat) / 1000)), (.maxCellIndex, .natural vmaxCell.toNat),
        (.minCellVoltage, .rational ((vmin.toNat : Rat) / 1000)), (.minCellIndex, .natural vminCell.toNat)] := by
  simp only [publishes, scale_eq, ident, Nat.cast_ofNat]

theorem publishes_minMaxTemperature (cfg : Config) (tmax tmaxProbe tmin tminProbe : Byte) :
    publishes cfg (.minMaxTemperature tmax tmaxProbe tmin tminProbe) =
      [(.maxTemperature, .integer ((tmax.toNat : Int) - 40)), (.maxTemperatureProbe, .natural tmaxProbe.toNat),
        (.minTemperature, .integer ((tmin.toNat : Int) - 40)), (.minTemperatureProbe, .natural tminProbe.toNat)] := rfl

/-- The publish of the pack state, written as R80's chain of tests: none where the byte names no state (D16). -/
theorem packState_publishes (raw : Byte) :
    (enumState raw).toList.map (fun p => (Channel.packState, Value.packState p)) =
      if raw = 0 then [(.packState, .packState .idle)]
      else if raw = 1 then [(.packState, .packState .charging)]
      else if raw = 2 then [(.packState, .packState .discharging)]
      else [] := by
  unfold enumState
  split_ifs <;> rfl

theorem publishes_mosStatus (cfg : Config) (state chg dsg : Byte) (cap : Word) :
    publishes cfg (.mosStatus state chg dsg cap) =
      (enumState state).toList.map (fun p => (.packState, .packState p)) ++
        [(.chargeMos, .flag (mosFlag cfg chg)), (.dischargeMos, .flag (mosFlag cfg dsg)),
          (.remainingCapacity, .rational ((cap.toNat : Rat) / 1000))] := by
  simp only [publishes, scale_eq, flag, Nat.cast_ofNat]

theorem publishes_packStatus (cfg : Config) (cells : Byte) :
    publishes cfg (.packStatus cells) = [(.cellCount, .natural cells.toNat)] := rfl

theorem publishes_temperature (cfg : Config) (sel t1 t2 : Byte) :
    publishes cfg (.temperature sel t1 t2) =
      if sel = 1 then
        [(.temperature1, .integer ((t1.toNat : Int) - 40)), (.temperature2, .integer ((t2.toNat : Int) - 40))]
      else [] := rfl

theorem publishes_unrecognised (cfg : Config) (t : Byte) : publishes cfg (.unrecognised t) = [] := rfl

/-! ### Accepting and decoding -/

/-- Accepting a frame in SCANNING writes POS, LAST, EVT and PUB, and nothing else (R64, R69). -/
theorem acceptFrame_eq_next {s : State} (h : s.phase = .scanning) (f : Frame) {r : Record} {ps : List Publish}
    (hps : publishes s.cfg r = ps) :
    acceptFrame f r s =
      .next
        { s with
          pos := s.pos + 13, last := .acc, evt := s.evt ++ [.acc s.pos f r], pub := s.pub ++ ps } := by
  subst hps
  exact if_pos h

/-- A valid frame under a kind's type byte decodes to that kind's fields (R45, R46). -/
theorem decodeResponse_of_typeCode {cfg : Config} {f : Frame} {k : MsgKind} (hwf : cfg.wf) (hv : validFrame f)
    (ht : f.b2 = cfg.typeCode k) : decodeResponse cfg f = .ok (decodeFields f k) := by
  rw [decodeResponse_of_valid hv, decodeAccepted_typeCode hwf ht]

/-- A valid frame under any other type byte decodes to DEC.unrecognised (R45, R83). -/
theorem decodeResponse_of_forall_ne {cfg : Config} {f : Frame} (hv : validFrame f)
    (hno : ∀ k, f.b2 ≠ cfg.typeCode k) :
    decodeResponse cfg f =
      .ok (.decUnrecognised ⟨f.b2, f.b3, f.b4, f.b5, f.b6, f.b7, f.b8, f.b9, f.b10, f.b11⟩) := by
  have ht : cfg.isTypeCode f.b2 = false := by
    rw [Bool.eq_false_iff, Ne, cfg.isTypeCode_iff]
    exact fun ⟨k, hk⟩ => hno k hk.symm
  rw [decodeResponse_of_valid hv, decodeAccepted_of_not_isTypeCode ht]

/-! ### The statements about the seven field decoders -/

/-- Settles O13: the accept branch with the three publishes of the record. -/
theorem decBatteryLevelPublishes : Obligations.DecBatteryLevelPublishes := by
  refine ⟨fun x s h => acceptFrame_eq_next h _ (publishes_batteryLevel ..),
    fun cfg f => decodeResponse_of_typeCode, fun raw => ?_⟩
  obtain ⟨hlo, hhi⟩ := natCast_div_mem_range (half_toNat_le raw) 10
  exact ⟨mod_cast hlo, mod_cast hhi, current_mem_range raw⟩

/-- Settles O14: the accept branch with the four publishes of the record. -/
theorem decMinMaxVoltagePublishes : Obligations.DecMinMaxVoltagePublishes :=
  ⟨fun _ _ h => acceptFrame_eq_next h _ (publishes_minMaxVoltage ..), fun _ _ => decodeResponse_of_typeCode,
    fun raw => mod_cast natCast_div_mem_range (half_toNat_le raw) 1000⟩

/-- Settles O15: the accept branch with the four publishes of the record. -/
theorem decMinMaxTemperaturePublishes : Obligations.DecMinMaxTemperaturePublishes :=
  ⟨fun _ _ h => acceptFrame_eq_next h _ (publishes_minMaxTemperature ..), fun _ _ => decodeResponse_of_typeCode,
    temperature_mem_range⟩

/-- Settles O16: the accept branch with the pack state's publish, if any, before the other three. -/
theorem decMosStatusPublishes : Obligations.DecMosStatusPublishes := by
  refine ⟨fun x s h => ?_, fun cfg f => decodeResponse_of_typeCode, fun raw => ?_, fun cfg b hoff =>
    mosFlag_eq_true_iff_ne_zero hoff b⟩
  · rw [← packState_publishes]
    exact acceptFrame_eq_next h _ (publishes_mosStatus ..)
  · have hle : raw.toNat ≤ 4294967295 := Nat.le_of_lt_succ raw.isLt
    exact_mod_cast natCast_div_mem_range hle 1000

/-- Settles O17: the accept branch with the one publish of the record. -/
theorem decPackStatusPublishes : Obligations.DecPackStatusPublishes :=
  ⟨fun _ _ h => acceptFrame_eq_next h _ (publishes_packStatus ..), fun _ _ => decodeResponse_of_typeCode⟩

/-- Settles O18: the accept branch, whatever the selector; only the publishes depend on it. -/
theorem decTemperaturePublishes : Obligations.DecTemperaturePublishes :=
  ⟨fun _ _ h => acceptFrame_eq_next h _ (publishes_temperature ..), fun _ _ => decodeResponse_of_typeCode⟩

/-- Settles O19: the accept branch with nothing to publish. -/
theorem decUnrecognisedPublishesNothing : Obligations.DecUnrecognisedPublishesNothing := by
  refine ⟨fun x s h => ?_, fun cfg f => decodeResponse_of_forall_ne⟩
  have hexec := acceptFrame_eq_next h (encode s.cfg (.decUnrecognised x)) (publishes_unrecognised s.cfg x.t)
  rwa [List.append_nil] at hexec

/-- Settles O20: an accepted frame's instruction accepts its own encoding, which is that frame. -/
theorem acceptedFrameIsRecordedByDECODE : Obligations.AcceptedFrameIsRecordedByDECODE := by
  intro s f i hp hv hdec
  have hframe : encode s.cfg i = f := encode_of_decodeResponse hv.1 hdec
  obtain ⟨-, -, rfl⟩ := decodeResponse_eq_ok hdec
  rw [exec_decodeAccepted, hframe]
  exact acceptFrame_eq_next hp f rfl

/-! ### The domains of the channels -/

/-- The domain of each channel (R84). -/
def Channel.Carries : Channel → Value → Prop
  | .voltage, v | .current, v | .batteryLevel, v => ∃ z : Int, v = .rational ((z : Rat) / 10)
  | .maxCellVoltage, v | .minCellVoltage, v | .remainingCapacity, v => ∃ z : Int, v = .rational ((z : Rat) / 1000)
  | .maxCellIndex, v | .minCellIndex, v | .maxTemperatureProbe, v | .minTemperatureProbe, v | .cellCount, v =>
    ∃ n : Nat, n ≤ 255 ∧ v = .natural n
  | .maxTemperature, v | .minTemperature, v | .temperature1, v | .temperature2, v =>
    ∃ z : Int, -40 ≤ z ∧ z ≤ 215 ∧ v = .integer z
  | .packState, v => ∃ p, v = .packState p
  | .chargeMos, v | .dischargeMos, v => ∃ b, v = .flag b

theorem rational_natCast_div_eq (n : Nat) (d : Rat) :
    ∃ z : Int, Value.rational ((n : Rat) / d) = .rational ((z : Rat) / d) :=
  ⟨n, by rw [Int.cast_natCast]⟩

theorem natural_byte_eq (raw : Byte) : ∃ n : Nat, n ≤ 255 ∧ Value.natural raw.toNat = .natural n :=
  ⟨raw.toNat, Nat.le_of_lt_succ raw.isLt, rfl⟩

theorem integer_temperature_eq (raw : Byte) :
    ∃ z : Int, -40 ≤ z ∧ z ≤ 215 ∧ Value.integer ((raw.toNat : Int) - 40) = .integer z :=
  ⟨_, (temperature_mem_range raw).1, (temperature_mem_range raw).2, rfl⟩

/-- Whatever a record publishes lies in its channel's domain. -/
theorem publishes_carries (cfg : Config) (r : Record) : ∀ e ∈ publishes cfg r, e.1.Carries e.2 := by
  cases r with
  | batteryLevel v i soc =>
    simp only [publishes_batteryLevel, List.forall_mem_cons]
    exact ⟨rational_natCast_div_eq .., ⟨_, rfl⟩, rational_natCast_div_eq .., List.forall_mem_nil _⟩
  | minMaxVoltage vmax vmaxCell vmin vminCell =>
    simp only [publishes_minMaxVoltage, List.forall_mem_cons]
    exact ⟨rational_natCast_div_eq .., natural_byte_eq _, rational_natCast_div_eq .., natural_byte_eq _,
      List.forall_mem_nil _⟩
  | minMaxTemperature tmax tmaxProbe tmin tminProbe =>
    simp only [publishes_minMaxTemperature, List.forall_mem_cons]
    exact ⟨integer_temperature_eq _, natural_byte_eq _, integer_temperature_eq _, natural_byte_eq _,
      List.forall_mem_nil _⟩
  | mosStatus state chg dsg cap =>
    simp only [publishes_mosStatus, List.forall_mem_append, List.forall_mem_map, List.forall_mem_cons]
    exact ⟨fun p _ => ⟨p, rfl⟩, ⟨_, rfl⟩, ⟨_, rfl⟩, rational_natCast_div_eq .., List.forall_mem_nil _⟩
  | packStatus cells =>
    simp only [publishes_packStatus, List.forall_mem_cons]
    exact ⟨natural_byte_eq _, List.forall_mem_nil _⟩
  | temperature sel t1 t2 =>
    rw [publishes_temperature]
    split_ifs
    · simp only [List.forall_mem_cons]
      exact ⟨integer_temperature_eq _, integer_temperature_eq _, List.forall_mem_nil _⟩
    · exact List.forall_mem_nil _
  | unrecognised t => exact List.forall_mem_nil _

/-- Settles O22: each of the six domains, on each of its channels. -/
theorem channelsCarryTheirDomains : Obligations.ChannelsCarryTheirDomains := by
  intro cfg r ch v hmem
  have hv : ch.Carries v := publishes_carries cfg r (ch, v) hmem
  refine ⟨fun hch => ?_, fun hch => ?_, fun hch => ?_, fun hch => ?_, by rintro rfl; exact hv, fun hch => ?_⟩
  all_goals fin_cases hch <;> exact hv

end Sys2Proof.Machine
end


section
/-! The family 60_exceptions.md: no step stops the block (R87, R92), a refused command changes the mark alone (R89), and
nothing happens unasked (R91). -/

namespace Sys2Proof.Machine

/-! ### What is refused -/

/-- An instruction is the ENC of a kind, or accepts the frame it encodes to. -/
theorem exec_enc_or_accept (i : Instr) :
    (∃ k : MsgKind, i = k.encInstr) ∨ ∃ r, ∀ s, exec i s = acceptFrame (encode s.cfg i) r s := by
  cases i with
  | encBatteryLevel => exact .inl ⟨.batteryLevel, rfl⟩
  | encMinMaxVoltage => exact .inl ⟨.minMaxVoltage, rfl⟩
  | encMinMaxTemperature => exact .inl ⟨.minMaxTemperature, rfl⟩
  | encMosStatus => exact .inl ⟨.mosStatus, rfl⟩
  | encPackStatus => exact .inl ⟨.packStatus, rfl⟩
  | encTemperature => exact .inl ⟨.temperature, rfl⟩
  | decBatteryLevel | decMinMaxVoltage | decMinMaxTemperature | decMosStatus | decPackStatus | decTemperature
  | decUnrecognised => exact .inr ⟨_, fun _ => rfl⟩

/-- In SCANNING a load is BUSY whatever its length: the phase is tested before BUF_CAP (R90). -/
theorem loadBuffer_busy {s : State} (h : s.phase = .scanning) (b : List Byte) :
    loadBuffer b s = .next (s.refuse .busy) := if_pos h

theorem loadBuffer_tooLong {s : State} (h : s.phase ≠ .scanning) {b : List Byte} (hf : fitsCap s.cfg b.length = false) :
    loadBuffer b s = .next (s.refuse .tooLong) := by
  obtain ⟨hs, -⟩ | ⟨-, -, e⟩ | ⟨-, ht, -⟩ := loadBuffer_cases b s
  · exact absurd hs h
  · exact e
  · exact absurd (ht.symm.trans hf) (by decide)

/-- A load answers a next state, refused or not. -/
theorem loadBuffer_next (b : List Byte) (s : State) : ∃ t, loadBuffer b s = .next t := by
  obtain ⟨-, e⟩ | ⟨-, -, e⟩ | ⟨-, -, e⟩ := loadBuffer_cases b s <;> exact ⟨_, e⟩

/-! ### The statements -/

/-- Settles O42, input by input: only DEC.STEP and a turn of DEC.RUN read the buffer, and under the invariant no read is
out of it. -/
theorem noStepIsFatal : Obligations.NoStepIsFatal := by
  intro s hi
  cases hin : s.inputs with
  | nil => exact ⟨s, step_idle hin⟩
  | cons c rest =>
    cases c with
    | enc op =>
      cases op with
      | kind k => exact step_enc hin ▸ exec_next k.encInstr (s.withInputs rest)
      | raw b => exact ⟨_, step_encRaw hin⟩
    | decLoad b => exact step_decLoad hin ▸ loadBuffer_next b (s.withInputs rest)
    | decStep => exact step_decStep hin ▸ decStep_next (s := s.withInputs rest) (hi.congr_inputs rest)
    | decRun =>
      by_cases hp : s.phase = .scanning
      · exact step_decRun_scanning hin hp ▸ decStep_next hi
      · exact ⟨_, step_decRun_over hin hp⟩
    | reset => exact ⟨_, step_reset hin⟩

/-- Settles O21: an instruction that is no ENC accepts a frame, and accepting one checks the phase. -/
theorem decOutsideScanningIsRefused : Obligations.DecOutsideScanningIsRefused := by
  intro i s henc hp
  obtain ⟨k, hk⟩ | ⟨r, hr⟩ := exec_enc_or_accept i
  · exact absurd hk (henc k)
  · exact (hr s).trans (acceptFrame_refused hp _ r)

/-- Settles O29: each of the four commands ends in the refusal R89 gives it. -/
theorem refusedCommandsChangeOnlyTheMark : Obligations.RefusedCommandsChangeOnlyTheMark := by
  intro s rest
  refine ⟨fun hin hp => ?_, fun b hin hp => ?_, fun b c hin hp hc hlt => ?_, fun b hin => step_encRaw hin⟩
  · exact (step_decStep hin).trans (decStep_notScanning (s := s.withInputs rest) hp)
  · exact (step_decLoad hin).trans (loadBuffer_busy (s := s.withInputs rest) hp b)
  · have hf : fitsCap s.cfg b.length = false := (not_fitsCap_iff _ _).2 ⟨c, hc, hlt⟩
    exact (step_decLoad hin).trans (loadBuffer_tooLong (s := s.withInputs rest) hp hf)

/-- Settles O34: a step with no input to take is idle. -/
theorem nothingHappensUnasked : Obligations.NothingHappensUnasked := fun _ => step_idle

end Sys2Proof.Machine
end

section
/-! The family 70_reset_and_hazards.md: what a reset leaves (R100, R101), and the echo of a request (R106). -/

namespace Sys2Proof

/-! ### The start byte in a request frame -/

/-- Under the default type codes neither the type byte nor the checksum is the start byte, so a request frame holds it
once, at its head (R7, R106). -/
theorem startByte_notMem_requestFrame_default_tail (k : MsgKind) :
    startByte ∉ (requestFrame Config.default k).bytes.tail := by
  cases k <;> decide

end Sys2Proof

namespace Sys2Proof.Machine

/-! ### The candidates behind a rejected frame -/

/-- With the cursor inside a frame that has no second start byte, the next candidate lies past that frame's end. -/
theorem IsCandidate.past_frame {t : State} {p q : Nat} {f : Frame} (hq : IsCandidate t q) (hf : HoldsFrame t p f)
    (hpos : p < t.pos) (htail : startByte ∉ f.bytes.tail) : p + 13 ≤ q := by
  obtain ⟨hle, -, hread, -⟩ := hq
  obtain ⟨i, rfl⟩ := Nat.exists_eq_add_of_lt (hpos.trans_le hle)
  by_contra hlt
  have hbyte : f.bytes[i + 1]? = some startByte := (hf (i + 1) (by omega)).symm.trans hread
  exact htail (List.mem_of_getElem? (List.getElem?_tail.trans hbyte))

/-! ### The statements -/

/-- Settles O50: byte 1 of a request is 0x80, so O26 rejects the echo, and the cursor then stands past the frame's one
start byte. -/
theorem echoedRequestIsRejectedAndHidesNothing : Obligations.EchoedRequestIsRejectedAndHidesNothing := by
  intro s rest p k hcfg hin hp hc hl hf
  have hkind : (requestFrame s.cfg k).b1 ≠ 0x01 := show reqAddr ≠ 0x01 by decide
  refine ⟨_, stepRejectsAWrongFrameKind s rest p _ hin hp hc hl hf hkind, rfl, rfl, rfl, fun q hq => ?_⟩
  rw [hcfg] at hf
  exact hq.past_frame hf p.lt_succ_self (startByte_notMem_requestFrame_default_tail k)

/-- Settles O32: the step answers the instance's reset state with the inputs that are left. -/
theorem resetAbandonsThePass : Obligations.ResetAbandonsThePass := fun s rest hin =>
  ⟨(State.resetOf s.cfg).withInputs rest, step_reset hin, by simp⟩

/-- Settles O33: the reset state of the default instance, element by element. -/
theorem resetValues : Obligations.ResetValues := by
  simp [Obligations.ResetValues, State.reset_eq]

/-- Settles O40: State.reset is the reset state of the default instance. -/
theorem invAfterReset : Obligations.InvAfterReset :=
  ⟨State.resetOf_inv, State.resetOf_inv Config.default⟩

end Sys2Proof.Machine
end
